-- ==== Sys2Proof/Word.lean ====
section
/-! DEFINITION. The bit strings of the block: bytes, frames and command words (00_scope.md R7 to R12, 30_encoding.md R49). -/

namespace Sys2Proof

/-- A byte: a SegmentByte (R7), a DigitMask (R8), a character code (R9). -/
abbrev Byte := BitVec 8

/-- The 16-bit serial frame (R11). -/
abbrev Frame := BitVec 16

/-- The 24-bit command word (R49). -/
abbrev Word := BitVec 24

end Sys2Proof
end

