-- ==== Sys2Proof/Syntax.lean ====
section
/-! DEFINITION. The commands of the block (30_encoding.md R52) and the command errors (60_exceptions.md R102). -/

namespace Sys2Proof

/-- One constructor per row of the opcode map (R52); the operands are the fields A and B as they stand (R51). -/
inductive Instr where
  /-- `NOP` (R98) -/
  | nop
  /-- `TX seg, dig` (R62) -/
  | tx (seg dig : Byte)
  /-- `CLR dig` (R64) -/
  | clr (dig : Byte)
  /-- `ENC_BEGIN padn` (R86): the whole field B, whose bit 7 must be 0 -/
  | encBegin (b : Byte)
  /-- `ENC_CHAR ch` (R87) -/
  | encChar (ch : Byte)
  /-- `ENC_END` (R88) -/
  | encEnd
  /-- `ENC_BEGINA` (R86) -/
  | encBeginA
  /-- `RD_MSG idx` (R89) -/
  | rdMsg (idx : Byte)
  /-- `ERRCLR` (R99) -/
  | errclr
deriving DecidableEq, Repr

/-- The command errors of R102. -/
inductive CmdError where
  /-- ILLEGAL_OP, code 1 -/
  | illegalOp
  /-- RESERVED_NZ, code 2 -/
  | reservedNz
  /-- SEQUENCE, code 3 -/
  | sequence
  /-- RANGE, code 4 -/
  | range
deriving DecidableEq, Repr

end Sys2Proof
end

