-- ==== Sys2Proof/WellFormed.lean ====
section
/-! DEFINITION. The one check an instruction term can fail: the reserved bit of ENC_BEGIN (30_encoding.md R51, R54). Every other
operand is a whole 8-bit field, and every value of it is legal (R62, R64, R87, R89). -/

namespace Sys2Proof

/-- ENC_BEGIN's operand bit 7 is 0, so its padding count is 0..127 (R51). -/
def Instr.wf : Instr → Bool
  | .nop => true
  | .tx _ _ => true
  | .clr _ => true
  | .encBegin b => !b.getLsbD 7
  | .encChar _ => true
  | .encEnd => true
  | .encBeginA => true
  | .rdMsg _ => true
  | .errclr => true

end Sys2Proof
end

