-- ==== Sys2Proof/Decode.lean ====
section
/-! DEFINITION. Decoding a command word (30_encoding.md R49 to R55), the opcode map as a table (R52), the encoder. -/

namespace Sys2Proof

/-- Field OP, bits 23..16 (R49). -/
def opField (w : Word) : Byte := w.extractLsb' 16 8

/-- Field A, bits 15..8 (R49). -/
def aField (w : Word) : Byte := w.extractLsb' 8 8

/-- Field B, bits 7..0 (R49). -/
def bField (w : Word) : Byte := w.extractLsb' 0 8

/-- A command whose reserved fields must satisfy `ok`, or RESERVED_NZ (R54). -/
def checkReserved (ok : Bool) (i : Instr) : Except CmdError Instr :=
  if ok then .ok i else .error .reservedNz

/-- Decode (R53): OP first, then the reserved fields. Every word has an outcome (R60). -/
def decode (w : Word) : Except CmdError Instr :=
  let op := opField w
  let a := aField w
  let b := bField w
  if op = 0x00 then checkReserved (a == 0 && b == 0) .nop
  else if op = 0x01 then .ok (.tx a b)
  else if op = 0x02 then checkReserved (a == 0) (.clr b)
  else if op = 0x10 then checkReserved (a == 0 && !b.getLsbD 7) (.encBegin b)
  else if op = 0x11 then checkReserved (a == 0) (.encChar b)
  else if op = 0x12 then checkReserved (a == 0 && b == 0) .encEnd
  else if op = 0x13 then checkReserved (a == 0 && b == 0) .encBeginA
  else if op = 0x20 then checkReserved (a == 0) (.rdMsg b)
  else if op = 0x30 then checkReserved (a == 0 && b == 0) .errclr
  else .error .illegalOp

/-- A word from its three fields (R49). -/
def mkWord (op a b : Byte) : Word := op ++ a ++ b

/-- The word of a command (R52, R57). -/
def encode : Instr → Word
  | .nop => mkWord 0x00 0 0
  | .tx seg dig => mkWord 0x01 seg dig
  | .clr dig => mkWord 0x02 0 dig
  | .encBegin b => mkWord 0x10 0 b
  | .encChar ch => mkWord 0x11 0 ch
  | .encEnd => mkWord 0x12 0 0
  | .encBeginA => mkWord 0x13 0 0
  | .rdMsg idx => mkWord 0x20 0 idx
  | .errclr => mkWord 0x30 0 0

/-- One row of the opcode map: the words of the command are those with `w &&& mask = pattern` (R52). -/
structure OpRow where
  mnemonic : String
  mask     : Word
  pattern  : Word
deriving DecidableEq, Repr

/-- The opcode map (R52). -/
def opcodeMap : List OpRow :=
  [⟨"NOP",        0xFFFFFF, 0x000000⟩,
   ⟨"TX",         0xFF0000, 0x010000⟩,
   ⟨"CLR",        0xFFFF00, 0x020000⟩,
   ⟨"ENC_BEGIN",  0xFFFF80, 0x100000⟩,
   ⟨"ENC_CHAR",   0xFFFF00, 0x110000⟩,
   ⟨"ENC_END",    0xFFFFFF, 0x120000⟩,
   ⟨"ENC_BEGINA", 0xFFFFFF, 0x130000⟩,
   ⟨"RD_MSG",     0xFFFF00, 0x200000⟩,
   ⟨"ERRCLR",     0xFFFFFF, 0x300000⟩]

/-- The mnemonic of a command, as the opcode map spells it. -/
def Instr.mnemonic : Instr → String
  | .nop => "NOP"
  | .tx _ _ => "TX"
  | .clr _ => "CLR"
  | .encBegin _ => "ENC_BEGIN"
  | .encChar _ => "ENC_CHAR"
  | .encEnd => "ENC_END"
  | .encBeginA => "ENC_BEGINA"
  | .rdMsg _ => "RD_MSG"
  | .errclr => "ERRCLR"

/-- Does the row hold the word? -/
def OpRow.holds (r : OpRow) (w : Word) : Bool := w &&& r.mask == r.pattern

/-- The word that an instruction with the low `nbits` bits of `w` presents on `cmd_word`: the port is 24 bits wide and
parallel, so no byte order arises (R40, R50). -/
def wordOfBits (nbits w : Nat) : Word := BitVec.ofNat 24 (w % 2 ^ nbits)

/-- What the decoder reads from the word whose low `nbits` bits are `w`; none where it refuses the word with a CmdError. -/
def decodeTableWord (nbits w : Nat) : Option Instr :=
  match decode (wordOfBits nbits w) with
  | .ok i => some i
  | .error _ => none

end Sys2Proof
end

