-- ==== Sys2Proof/Config.lean ====
section
/-! DEFINITION. The configuration of an instance (00_scope.md R5), the instance the reset state carries, and the free values
(93_implementation_defined.md part 1, treatment `any value`). -/

namespace Sys2Proof

/-- The two codes POINT_CHAR may have (R5). -/
inductive PointChar where
  | dot    -- '.', 0x2E
  | colon  -- ':', 0x3A
deriving DecidableEq, Repr

/-- What a point after a fallback glyph does (R5, R81). -/
inductive PointAfterFallback where
  | merge
  | lookup
deriving DecidableEq, Repr

/-- FONT, a partial map from code to glyph: the first pair with the code counts, a code without a pair has no entry (R5, R39). -/
abbrev Font := List (Byte × Byte)

/-- The parameters of R5, with the defaults R5 gives. A parameter that R5 leaves OPEN has no default. -/
structure Config where
  /-- FONT -/
  font               : Font
  /-- LIT_LEVEL -/
  litLevel           : Bool
  /-- POINT_CHAR -/
  pointChar          : PointChar := .dot
  /-- ESC_CHAR -/
  escChar            : Byte := 0x23
  /-- FALLBACK_CHAR -/
  fallbackChar       : Option Byte
  /-- UNDEF_GLYPH -/
  undefGlyph         : Byte
  /-- POINT_AFTER_FALLBACK -/
  pointAfterFallback : PointAfterFallback := .merge
  /-- PAD_CHAR -/
  padChar            : Byte := 0x20
  /-- N_DIGITS -/
  nDigits            : Nat
  /-- DIGIT_MASKS, used by the host only -/
  digitMasks         : List Byte
  /-- MSG_MAX -/
  msgMax             : Nat := 255
  /-- T_PHASE -/
  tPhase             : Nat := 1
deriving DecidableEq, Repr

/-- EX_FONT, the spec's own test font (95_test_vectors.md section 0). -/
def Config.exFont : Font :=
  [(0x20, 0x00), (0x30, 0x3F), (0x31, 0x06), (0x32, 0x5B), (0x33, 0x4F), (0x41, 0x77), (0x5F, 0x08)] ++
  [(0x42, 0x7C), (0x59, 0x6E), (0x4F, 0x3F), (0x21, 0x82), (0x23, 0x49), (0x2D, 0x40)]

/-- CFG-A (95_test_vectors.md section 0), the instance `State.reset` carries.
DESIGN CHOICE (entry 2), unsafe only for a claim about that one state: the OPEN parameters have no value in the spec. -/
def Config.cfgA : Config where
  font         := Config.exFont
  litLevel     := true
  fallbackChar := none
  undefGlyph   := 0x08
  nDigits      := 4
  digitMasks   := [8, 4, 2, 1]

/-- Free value: the stall length an implementation takes after the command accepted at tick `n` (R23, U11, entry 6). -/
opaque Config.stallTicks (n : Nat) : Nat

/-- Free value: STATUS[15:1] on the port at tick `n` while STALL = 1 (R121, U12, entry 7). -/
opaque Config.stallStatus (n : Nat) : BitVec 15

/-- Free value: RESP on the port at tick `n` while STALL = 1 (R121, U12, entry 7). -/
opaque Config.stallResp (n : Nat) : Byte

/-- Free value: what the MSGBUF byte at index `i` holds when nothing has been written there (R26, U13, entry 8). -/
opaque Config.staleMsgByte (i : Nat) : Byte

/-- Free value: the receiver's SR at power-up (R36, U15, entry 9). -/
opaque Config.powerUpSr : Frame

/-- Free value: the receiver's LAT at power-up (R36, U15, entry 9). -/
opaque Config.powerUpLat : Frame

/-- Free value: SR after a reset at tick `n` that finds SCLK = 0 (R116(a), U16, entry 10). -/
opaque Config.abortSr (n : Nat) : Frame

end Sys2Proof
end

