-- ==== Sys2Proof/Machine/State.lean ====
section
/-! DEFINITION. The state of the block (10_state.md R18), of the receiver beside it (R36, R73) and of the host's port (R19), its
value after reset (70_reset_and_hazards.md R115), and the reasons a step can stop. -/

namespace Sys2Proof.Machine

/-- TX_STATE (R22). -/
inductive TxState where
  | idle
  | busy
deriving DecidableEq, Repr

/-- ENC_MODE (R24); `opened` is the spec's OPEN. -/
inductive EncMode where
  | idle
  | opened
  | done
  | err
deriving DecidableEq, Repr

/-- ENC_ERR (R25, R104). -/
inductive EncErr where
  | none
  | lookup
  | escape
  | overflow
deriving DecidableEq, Repr

/-- ESC_ST (R27). -/
inductive EscState where
  | none
  | mark
  | hex1
deriving DecidableEq, Repr

/-- The levels of the three output lines (R21). -/
structure Lines where
  /-- DATA -/
  data : Bool
  /-- SCLK -/
  sclk : Bool
  /-- RCLK -/
  rclk : Bool
deriving DecidableEq, Repr

/-- The TX sequencer (R22). -/
structure Tx where
  /-- TX_STATE -/
  state : TxState
  /-- TX_FRAME -/
  frame : Frame
  /-- TX_CNT -/
  cnt   : Nat
deriving DecidableEq, Repr

/-- MSGBUF: the bytes written so far, by index, indices strictly rising (R38, entry 8). -/
abbrev Memory := List Host.Cell

/-- The encoder (R24 to R29). -/
structure Enc where
  /-- ENC_MODE -/
  mode   : EncMode
  /-- ENC_ERR -/
  err    : EncErr
  /-- MSGLEN -/
  msgLen : Nat
  /-- MSGBUF -/
  msgBuf : Memory
  /-- ESC_ST -/
  escSt  : EscState
  /-- ESC_HI -/
  escHi  : BitVec 4
  /-- LASTFB -/
  lastFb : Bool
  /-- PADSUF -/
  padSuf : Nat
deriving DecidableEq, Repr

/-- The external receiver: shift register and output latch (R36, R73). -/
structure Receiver where
  /-- SR -/
  sr  : Frame
  /-- LAT -/
  lat : Frame
deriving DecidableEq, Repr

/-- What the host drives on the input ports during one tick (R19). -/
structure PortInput where
  /-- `rst` -/
  rst   : Bool
  /-- `cmd_valid` -/
  valid : Bool
  /-- `cmd_word` -/
  word  : Word
deriving DecidableEq, Repr

/-- One line write of a transaction (R65). -/
inductive LineWrite where
  | data (b : Bool)
  | sclk (b : Bool)
  | rclk (b : Bool)
deriving DecidableEq, Repr

/-- The whole machine. `cfg` and `draws` are the model's own fields (entries 1 and 12); `inputs` is the host's (entry 4). -/
structure State where
  /-- the configuration of the instance, which nothing changes (R5, R118) -/
  cfg       : Config
  /-- DATA, SCLK, RCLK -/
  lines     : Lines
  /-- TX_STATE, TX_FRAME, TX_CNT -/
  tx        : Tx
  /-- ENC_MODE .. PADSUF -/
  enc       : Enc
  /-- CMD_ERR_CODE -/
  cmdErr    : BitVec 3
  /-- RESP -/
  resp      : Byte
  /-- stall ticks still to come; STALL = 1 while it is not 0 (R23, entry 6) -/
  stallLeft : Nat
  /-- the receiver on the lines -/
  rx        : Receiver
  /-- what the host drives on the coming ticks, the next tick first; after the last one it drives nothing -/
  inputs    : List PortInput
  /-- ticks so far, which the free values are applied to -/
  draws     : Nat
deriving DecidableEq, Repr

/-- Why the machine stops. -/
inductive Fault where
  /-- CMD_ERR_CODE is 5, 6 or 7, values that are never produced: raised by `step`, as U17 asks. Safe: no state that a run from
  reset reaches has such a code. -/
  | cmdErrCodeNeverProduced
deriving DecidableEq, Repr

/-- Why the machine refuses to run. -/
inductive Refusal where
  /-- The instruction has no meaning in this model: raised by an arm of `exec`. Safe. No arm raises it now. -/
  | notModelled (mnemonic : String)
  /-- The configuration breaks R6, and R6 has a model refuse such an instance: raised by `step`. Safe. -/
  | illFormedConfig
deriving DecidableEq, Repr

/-- The lines after reset, the idle levels (R115, R67). -/
def Lines.reset : Lines := ⟨false, true, true⟩

/-- The sequencer after reset (R115). -/
def Tx.reset : Tx := ⟨.idle, 0, 0⟩

/-- The encoder after reset (R115); MSGBUF lists nothing (entry 8). -/
def Enc.reset : Enc := ⟨.idle, .none, 0, [], .none, 0, false, 0⟩

/-- The block at its reset values (R115) in an instance `c`, with the receiver, the host and the tick count beside it. -/
def State.resetFor (c : Config) (rx : Receiver) (inputs : List PortInput) (draws : Nat) : State where
  cfg       := c
  lines     := Lines.reset
  tx        := Tx.reset
  enc       := Enc.reset
  cmdErr    := 0
  resp      := 0
  stallLeft := 0
  rx        := rx
  inputs    := inputs
  draws     := draws

/-- The machine right after reset: the receiver holds its unknown power-up values (R117, entry 9), the host has queued nothing. -/
def State.reset : State :=
  State.resetFor Config.cfgA ⟨Config.powerUpSr, Config.powerUpLat⟩ [] 0

end Sys2Proof.Machine
end

