-- ==== Sys2Proof/Machine/Flags.lean ====
section
/-! DEFINITION. The codes of the status fields, BUSY, STALL, STATUS and the output ports (10_state.md R20, R23, R32 to R34). -/

namespace Sys2Proof.Machine

/-- STATUS[2:1] (R32). -/
def EncMode.code : EncMode → BitVec 2
  | .idle => 0
  | .opened => 1
  | .done => 2
  | .err => 3

/-- STATUS[4:3] (R25, R32). -/
def EncErr.code : EncErr → BitVec 2
  | .none => 0
  | .lookup => 1
  | .escape => 2
  | .overflow => 3

/-- The numeric code of a command error (R102). -/
def cmdErrorCode : CmdError → BitVec 3
  | .illegalOp => 1
  | .reservedNz => 2
  | .sequence => 3
  | .range => 4

/-- STALL (R23, entry 6). -/
def State.stall (s : State) : Bool := s.stallLeft != 0

/-- BUSY (R23). -/
def State.busy (s : State) : Bool := s.tx.state == .busy || s.stall

/-- `cmd_ready` (R20). -/
def State.cmdReady (s : State) : Bool := !s.busy

/-- STATUS, computed from the state (R32). -/
def State.status (s : State) : BitVec 16 :=
  BitVec.ofNat 8 s.enc.msgLen ++ s.cmdErr ++ s.enc.err.code ++ s.enc.mode.code ++ BitVec.ofBool s.busy

/-- The port `status` (R20): STATUS, but for bits 15..1 during a stall, which are then unspecified (R121, entry 7). -/
def State.statusPort (s : State) : BitVec 16 :=
  if s.stall then Config.stallStatus s.draws ++ BitVec.ofBool s.busy else s.status

/-- The port `resp` (R20): RESP, unspecified during a stall (R121, entry 7). -/
def State.respPort (s : State) : Byte :=
  if s.stall then Config.stallResp s.draws else s.resp

/-- The pin `data_o` (R20). -/
def State.dataPin (s : State) : Bool := s.lines.data

/-- The pin `sclk_o` (R20). -/
def State.sclkPin (s : State) : Bool := s.lines.sclk

/-- The pin `rclk_o` (R20). -/
def State.rclkPin (s : State) : Bool := s.lines.rclk

/-- The receiver's segment outputs (R73). -/
def Receiver.segments (r : Receiver) : Byte := r.lat.extractLsb' 8 8

/-- The receiver's digit-select outputs (R73). -/
def Receiver.digits (r : Receiver) : Byte := r.lat.extractLsb' 0 8

end Sys2Proof.Machine
end

