-- ==== Sys2Proof/Machine/Operands.lean ====
section
/-! DEFINITION. What the commands compute from their operands and the configuration: characters, hex digits, glyphs, padding
counts, frames and line events, and the well-formedness of a configuration. -/

namespace Sys2Proof

/-- The code of POINT_CHAR (R5). -/
def PointChar.code : PointChar → Byte
  | .dot => 0x2E
  | .colon => 0x3A

namespace Machine

/-- `isHex` (R84): '0'..'9', 'A'..'F', 'a'..'f'. -/
def isHex (c : Byte) : Bool :=
  (0x30 ≤ c && c ≤ 0x39) || (0x41 ≤ c && c ≤ 0x46) || (0x61 ≤ c && c ≤ 0x66)

/-- `hexVal` (R84), meant for a `c` with `isHex c`. -/
def hexVal (c : Byte) : BitVec 4 :=
  if c ≤ 0x39 then (c - 0x30).setWidth 4
  else if c ≤ 0x46 then (c - 0x37).setWidth 4
  else (c - 0x57).setWidth 4

/-- `Font(c)` (R76). -/
def fontGlyph (cfg : Config) (c : Byte) : Option Byte := cfg.font.lookup c

/-- Glyph resolution (R77): the glyph and whether it is the fallback's; none is the rule's `miss`. -/
def resolve (cfg : Config) (c : Byte) : Option (Byte × Bool) :=
  match fontGlyph cfg c with
  | some g => some (g, false)
  | none =>
    match cfg.fallbackChar with
    | some f => (fontGlyph cfg f).map fun g => (g, true)
    | none => none

/-- The compatibility condition `Q` (R78). -/
def compatQ (cfg : Config) : Bool :=
  match cfg.fallbackChar with
  | some f => fontGlyph cfg f == some cfg.undefGlyph && cfg.pointChar.code == 0x2E
  | none => false

/-- DP_BIT (R7). -/
def dpBit : Byte := 0x80

/-- PADN = B[6:0] (R51). -/
def padCount (b : Byte) : Nat := (b.extractLsb' 0 7).toNat

/-- The segment byte as line levels (R63). -/
def segw (cfg : Config) (seg : Byte) : Byte := if cfg.litLevel then seg else seg ^^^ 0xFF

/-- The frame of `TX seg, dig` (R11, R62). -/
def txFrame (cfg : Config) (seg dig : Byte) : Frame := segw cfg seg ++ dig

/-- The line write of event `k`, 0..49 (R65, R66). -/
def lineEvent (frame : Frame) (k : Nat) : LineWrite :=
  if k < 48 then
    if k % 3 = 0 then .data (frame.getLsbD (15 - k / 3))
    else if k % 3 = 1 then .sclk false
    else .sclk true
  else if k = 48 then .rclk false
  else .rclk true

end Machine

/-- A well-formed configuration: the conditions (a) to (g) of R6. -/
def Config.wf (c : Config) : Bool :=
  c.escChar != c.pointChar.code &&
  c.escChar != c.padChar && c.pointChar.code != c.padChar &&
  !Machine.isHex c.escChar &&
  c.nDigits == c.digitMasks.length &&
  decide (1 ≤ c.nDigits) && decide (c.nDigits ≤ 8) &&
  decide (1 ≤ c.msgMax) && decide (c.msgMax ≤ 255) &&
  decide (1 ≤ c.tPhase)

end Sys2Proof
end

