-- ==== Sys2Proof/Machine/Ops.lean ====
section
/-! DEFINITION. The shared operations: MSGBUF reads and writes (20_memory.md R38), the two ways an error is recorded
(60_exceptions.md R101, R103), and the writes of the output lines with the receiver that watches them (40_transmitter.md R73). -/

namespace Sys2Proof.Machine

/-- The byte listed at index `i`; none where nothing has been written. -/
def Memory.read : Memory → Nat → Option Byte
  | [], _ => none
  | (j, b) :: m, i => if j = i then some b else Memory.read m i

/-- Write one byte, keeping the indices strictly rising. -/
def Memory.write : Memory → Nat → Byte → Memory
  | [], i, v => [(i, v)]
  | (j, b) :: m, i, v =>
    if i < j then (i, v) :: (j, b) :: m
    else if i = j then (i, v) :: m
    else (j, b) :: Memory.write m i v

/-- The canonical form: indices strictly rising. An unlisted index reads as no listed byte, so no entry is superfluous. -/
abbrev Memory.wf (m : Memory) : Prop := (m.map Prod.fst).Pairwise (· < ·)

/-- `MsgRead(i)` (R13): a byte nothing has written is a free value (R26, entry 8). -/
def msgRead (e : Enc) (i : Nat) : Byte := (e.msgBuf.read i).getD (Config.staleMsgByte i)

/-- `MsgWrite(i, v)` (R13). -/
def msgWrite (i : Nat) (v : Byte) (e : Enc) : Enc := { e with msgBuf := e.msgBuf.write i v }

/-- `raise CmdError(code)` (R101): only the first error since the last ERRCLR or reset is kept, and nothing else changes. -/
def raiseCmdError (c : CmdError) (s : State) : State :=
  if s.cmdErr = 0 then { s with cmdErr := cmdErrorCode c } else s

/-- `fail(code)` (R103). -/
def encFail (code : EncErr) (e : Enc) : Enc := { e with mode := .err, err := code }

/-- Leaving the command-error state (R99, R108). -/
def clearCmdError (s : State) : State := { s with cmdErr := 0 }

/-- A write of DATA: no clock edge, the receiver does not react (R73). -/
def writeData (b : Bool) (s : State) : State := { s with lines := { s.lines with data := b } }

/-- What the receiver does when SCLK goes to level `b` (R73). -/
def Receiver.onSclk (l : Lines) (b : Bool) (r : Receiver) : Receiver :=
  if !l.sclk && b then { r with sr := r.sr.extractLsb' 0 15 ++ BitVec.ofBool l.data } else r

/-- What the receiver does when RCLK goes to level `b` (R73). -/
def Receiver.onRclk (l : Lines) (b : Bool) (r : Receiver) : Receiver :=
  if !l.rclk && b then { r with lat := r.sr } else r

/-- A write of SCLK. -/
def writeSclk (b : Bool) (s : State) : State :=
  { s with lines := { s.lines with sclk := b }, rx := s.rx.onSclk s.lines b }

/-- A write of RCLK. -/
def writeRclk (b : Bool) (s : State) : State :=
  { s with lines := { s.lines with rclk := b }, rx := s.rx.onRclk s.lines b }

/-- One line write (R13, R65, R71): performed even when the level stays. -/
def lineWrite : LineWrite → State → State
  | .data b, s => writeData b s
  | .sclk b, s => writeSclk b s
  | .rclk b, s => writeRclk b s

/-- What a reset tick does to the receiver (R116, R117): a low SCLK or RCLK rises to its idle level. With SCLK the bit shifted
in is unknown and SR is a free value (U16, entry 10); with RCLK the latch takes SR; with neither nothing changes. -/
def Receiver.onReset (l : Lines) (n : Nat) (r : Receiver) : Receiver where
  sr  := if l.sclk then r.sr else Config.abortSr n
  lat := if l.rclk then r.lat else r.sr

/-- Start a transaction (R61). -/
def startTx (frame : Frame) (s : State) : State := { s with tx := ⟨.busy, frame, 0⟩ }

end Sys2Proof.Machine
end

