-- ==== Sys2Proof/Machine/Control.lean ====
section
/-! DEFINITION. The control family (42_control.md): NOP and ERRCLR. -/

namespace Sys2Proof.Machine

/-- `NOP` (R98). -/
def execNop (s : State) : Host.Outcome State Fault Refusal := .next s

/-- `ERRCLR` (R99). -/
def execErrclr (s : State) : Host.Outcome State Fault Refusal := .next (clearCmdError s)

end Sys2Proof.Machine
end

