-- ==== Sys2Proof/Machine/Encoder.lean ====
section
/-! DEFINITION. The encoder family (41_encoder.md): ENC_BEGIN, ENC_BEGINA, ENC_CHAR, ENC_END, RD_MSG. The encoder's procedures act
on the encoder's own state and the configuration, and on nothing else (R70, R97). -/

namespace Sys2Proof.Machine

/-- `emit(g, fb)` (R79). -/
def encEmit (cfg : Config) (g : Byte) (fb : Bool) (e : Enc) : Enc :=
  if e.msgLen = cfg.msgMax then encFail .overflow e
  else { msgWrite e.msgLen g e with msgLen := e.msgLen + 1, lastFb := fb }

/-- `ordinary(c)` (R85): the lookup comes before the capacity. -/
def encOrdinary (cfg : Config) (c : Byte) (e : Enc) : Enc :=
  match resolve cfg c with
  | none => encFail .lookup e
  | some (g, fb) => encEmit cfg g fb e

/-- `point(c)` (R81). -/
def encPoint (cfg : Config) (c : Byte) (e : Enc) : Enc :=
  if e.msgLen = 0 then e
  else if e.lastFb && cfg.pointAfterFallback == .lookup && !compatQ cfg then encOrdinary cfg c e
  else msgWrite (e.msgLen - 1) (msgRead e (e.msgLen - 1) ||| dpBit) e

/-- `afterMark(c)` (R82). -/
def encAfterMark (cfg : Config) (c : Byte) (e : Enc) : Enc :=
  if c = cfg.escChar then encOrdinary cfg cfg.escChar { e with escSt := .none }
  else if isHex c then { e with escHi := hexVal c, escSt := .hex1 }
  else encFail .escape e

/-- `afterHex1(c)` (R83): the byte is `16 * ESC_HI + hexVal(c)`. -/
def encAfterHex1 (cfg : Config) (c : Byte) (e : Enc) : Enc :=
  if isHex c then encEmit cfg (e.escHi ++ hexVal c) false { e with escSt := .none }
  else encFail .escape e

/-- `encStep(c)` (R80). -/
def encStep (cfg : Config) (c : Byte) (e : Enc) : Enc :=
  match e.mode with
  | .opened =>
    match e.escSt with
    | .none =>
      if c = cfg.pointChar.code then encPoint cfg c e
      else if c = cfg.escChar then { e with escSt := .mark }
      else encOrdinary cfg c e
    | .mark => encAfterMark cfg c e
    | .hex1 => encAfterHex1 cfg c e
  | .idle => e
  | .done => e
  | .err => e

/-- `for j in 1 .. n: encStep(PAD_CHAR)` (R86, R88). -/
def encPad (cfg : Config) : Nat → Enc → Enc
  | 0, e => e
  | n + 1, e => encPad cfg n (encStep cfg cfg.padChar e)

/-- A session with nothing taken yet (R86). MSGBUF keeps its bytes, which MSGLEN = 0 hides (R26). -/
def encOpen (padn : Nat) (e : Enc) : Enc :=
  { e with mode := .opened, err := .none, msgLen := 0, escSt := .none, escHi := 0, lastFb := false, padSuf := padn }

/-- ENC_BEGIN on the encoder (R86). -/
def encBegin (cfg : Config) (padn : Nat) (e : Enc) : Enc := encPad cfg padn (encOpen padn e)

/-- The end-of-text check (R88): an escape left open is malformed. -/
def encClose (e : Enc) : Enc :=
  match e.mode with
  | .opened => if e.escSt = .none then { e with mode := .done } else encFail .escape e
  | .idle => e
  | .done => e
  | .err => e

/-- ENC_END on an open session (R88). -/
def encEnd (cfg : Config) (e : Enc) : Enc := encClose (encPad cfg e.padSuf e)

/-- `ENC_BEGIN padn` (R86). -/
def execEncBegin (b : Byte) (s : State) : Host.Outcome State Fault Refusal :=
  .next { s with enc := encBegin s.cfg (padCount b) s.enc }

/-- `ENC_BEGINA` (R86): ENC_BEGIN with N_DIGITS. -/
def execEncBeginA (s : State) : Host.Outcome State Fault Refusal :=
  .next { s with enc := encBegin s.cfg s.cfg.nDigits s.enc }

/-- `ENC_CHAR ch` (R87). -/
def execEncChar (ch : Byte) (s : State) : Host.Outcome State Fault Refusal :=
  match s.enc.mode with
  | .opened => .next { s with enc := encStep s.cfg ch s.enc }
  | .err => .next s
  | .idle => .next (raiseCmdError .sequence s)
  | .done => .next (raiseCmdError .sequence s)

/-- `ENC_END` (R88). -/
def execEncEnd (s : State) : Host.Outcome State Fault Refusal :=
  match s.enc.mode with
  | .opened => .next { s with enc := encEnd s.cfg s.enc }
  | .err => .next s
  | .idle => .next (raiseCmdError .sequence s)
  | .done => .next (raiseCmdError .sequence s)

/-- `RD_MSG idx` (R89). -/
def execRdMsg (idx : Byte) (s : State) : Host.Outcome State Fault Refusal :=
  if s.cfg.msgMax ≤ idx.toNat then .next (raiseCmdError .range s)
  else if idx.toNat < s.enc.msgLen then .next { s with resp := msgRead s.enc idx.toNat }
  else .next { s with resp := 0x00 }

end Sys2Proof.Machine
end

