-- ==== Sys2Proof/Machine/Transmitter.lean ====
section
/-! DEFINITION. The transmitter family (40_transmitter.md): TX, CLR and the sequencer's tick. -/

namespace Sys2Proof.Machine

/-- `TX seg, dig` (R62). -/
def execTx (seg dig : Byte) (s : State) : Host.Outcome State Fault Refusal :=
  .next (startTx (txFrame s.cfg seg dig) s)

/-- `CLR dig` (R64): the all-unlit SegmentByte, converted by polarity like any other. -/
def execClr (dig : Byte) (s : State) : Host.Outcome State Fault Refusal :=
  .next (startTx (txFrame s.cfg 0x00 dig) s)

/-- The line write of a tick, if the tick has one (R66): one every T_PHASE ticks. -/
def txEvent (s : State) : State :=
  if s.tx.cnt % s.cfg.tPhase = 0 then lineWrite (lineEvent s.tx.frame (s.tx.cnt / s.cfg.tPhase)) s else s

/-- The sequencer's count after a tick (R66, R68). -/
def txCount (tPhase : Nat) (t : Tx) : Tx :=
  if t.cnt = 50 * tPhase - 1 then { t with state := .idle, cnt := 0 } else { t with cnt := t.cnt + 1 }

/-- `TxTick` (R66). -/
def txTick (s : State) : State :=
  let s' := txEvent s
  { s' with tx := txCount s'.cfg.tPhase s'.tx }

end Sys2Proof.Machine
end

