-- ==== Sys2Proof/Machine/Dispatch.lean ====
section
/-! DEFINITION. One arm per command: its meaning once the block has accepted it (10_state.md R31(c)). -/

namespace Sys2Proof.Machine

def exec (i : Instr) (s : State) : Host.Outcome State Fault Refusal :=
  match i with
  | .nop => Sys2Proof.Machine.execNop s
  | .tx seg dig => Sys2Proof.Machine.execTx seg dig s
  | .clr dig => Sys2Proof.Machine.execClr dig s
  | .encBegin b => Sys2Proof.Machine.execEncBegin b s
  | .encChar ch => Sys2Proof.Machine.execEncChar ch s
  | .encEnd => Sys2Proof.Machine.execEncEnd s
  | .encBeginA => Sys2Proof.Machine.execEncBeginA s
  | .rdMsg idx => Sys2Proof.Machine.execRdMsg idx s
  | .errclr => Sys2Proof.Machine.execErrclr s

end Sys2Proof.Machine
end

