-- ==== Sys2Proof/Machine/Tick.lean ====
section
/-! DEFINITION. One clock tick of a well-formed instance (10_state.md R31): what the port presents, the reset step, acceptance,
stall ticks. -/

namespace Sys2Proof.Machine

/-- The port when the host drives nothing: `rst = 0`, `cmd_valid = 0` (entry 4). -/
def idlePort : PortInput := ⟨false, false, 0⟩

/-- What the host drives this tick. -/
def State.port (s : State) : PortInput := s.inputs.headD idlePort

/-- The tick is over: the host's next sample comes up, and the next free values (entries 4 and 12). -/
def endTick (s : State) : State := { s with inputs := s.inputs.tail, draws := s.draws + 1 }

/-- The reset step (R114, R115): every element of the block at its reset value, the configuration kept (R115), the receiver as
R116 and R117 say. -/
def resetStep (s : State) : State :=
  State.resetFor s.cfg (s.rx.onReset s.lines s.draws) s.inputs s.draws

/-- A tick of a stall passes (R23). -/
def stallTick (s : State) : State := { s with stallLeft := s.stallLeft - 1 }

/-- The stall the implementation takes after the command it just accepted (R23, R121, entry 6). -/
def drawStall (s : State) : State := { s with stallLeft := Config.stallTicks s.draws }

/-- Decode the accepted word and perform its effect (R31(c), R53): a word that is no command raises its CmdError. -/
def acceptWord (w : Word) (s : State) : Host.Outcome State Fault Refusal :=
  match decode w with
  | .ok i => exec i s
  | .error c => .next (raiseCmdError c s)

/-- The end of a tick that accepted a command. -/
def endAccept : Host.Outcome State Fault Refusal → Host.Outcome State Fault Refusal
  | .next t => .next (endTick (drawStall t))
  | .fault r => .fault r
  | .refused r => .refused r

/-- The tick without reset (R31(b) to (d)). -/
def runTick (s : State) : Host.Outcome State Fault Refusal :=
  match s.tx.state with
  | .busy => .next (endTick (stallTick (txTick s)))
  | .idle =>
    if s.stallLeft = 0 ∧ s.port.valid = true then endAccept (acceptWord s.port.word s)
    else .next (endTick (stallTick s))

/-- The tick (R31): reset beats everything (R107). A CMD_ERR_CODE of 5 to 7 is a fault (U17, entry 11). -/
def tick (s : State) : Host.Outcome State Fault Refusal :=
  if s.port.rst then .next (endTick (resetStep s))
  else if 4 < s.cmdErr then .fault .cmdErrCodeNeverProduced
  else runTick s

/-- The block ready to accept: no transaction and no stall under way. -/
def makeReady (s : State) : State :=
  { s with tx := { s.tx with state := .idle, cnt := 0 }, stallLeft := 0 }

/-- The host offers word `w` on this tick, in place of what it would have driven. -/
def offer (w : Word) (s : State) : State := { s with inputs := ⟨false, true, w⟩ :: s.inputs.tail }

end Sys2Proof.Machine
end

