-- ==== Sys2Proof/Machine/Step.lean ====
section
/-! DEFINITION. One step of the machine, and where its next instruction comes from. -/

namespace Sys2Proof.Machine

/-- One tick. An instance whose configuration breaks R6 is refused (R6, R118, entry 3). -/
def step (s : State) : Host.Outcome State Fault Refusal :=
  if s.cfg.wf then tick s else .refused .illFormedConfig

/-- `s` with the word offered on the port of the coming tick, and the block ready to take it (entry 5): the port is where the
block gets its next instruction (R17). -/
def State.withFetchWord (s : State) (nbits w : Nat) : State := offer (wordOfBits nbits w) (makeReady s)

end Sys2Proof.Machine
end

