-- ==== Sys2Proof/Machine/Assembler.lean ====
section
/-! DEFINITION. Command assembly (30_encoding.md R57, R58): the lines as terms, their words, and the text. An operand out of its
field's range is an assembly error and has no word (R57, U21). -/

namespace Sys2Proof.Machine

/-- A line of assembly: the nine commands (R57) and the pseudo-commands (R58), operands as the numbers written. -/
inductive AsmLine where
  | nop
  | tx (seg dig : Nat)
  | clr (dig : Nat)
  | encBegin (padn : Nat)
  | encBeginA
  | encChar (ch : Nat)
  | encEnd
  | rdMsg (idx : Nat)
  | errclr
  /-- `CLRALL` -/
  | clrAll
  /-- `TXALL seg` -/
  | txAll (seg : Nat)
  /-- `ENCODE "s", padn` -/
  | encode (s : List Nat) (padn : Nat)
  /-- `ENCODE "s", auto` -/
  | encodeAuto (s : List Nat)
deriving DecidableEq, Repr

/-- An 8-bit operand; none for a value above 255. -/
def asmByte (n : Nat) : Option Byte := if n ≤ 255 then some (BitVec.ofNat 8 n) else none

/-- A padding count; none for a value above 127. -/
def asmPad (n : Nat) : Option Byte := if n ≤ 127 then some (BitVec.ofNat 8 n) else none

/-- The ENC_CHAR commands of a text. -/
def asmText : List Nat → Option (List Instr)
  | [] => some []
  | c :: s =>
    match asmByte c, asmText s with
    | some b, some l => some (.encChar b :: l)
    | _, _ => none

/-- The commands of a line (R57, R58); none is an assembly error. -/
def assemble : AsmLine → Option (List Instr)
  | .nop => some [.nop]
  | .tx seg dig =>
    match asmByte seg, asmByte dig with
    | some a, some b => some [.tx a b]
    | _, _ => none
  | .clr dig => (asmByte dig).map fun b => [.clr b]
  | .encBegin padn => (asmPad padn).map fun b => [.encBegin b]
  | .encBeginA => some [.encBeginA]
  | .encChar ch => (asmByte ch).map fun b => [.encChar b]
  | .encEnd => some [.encEnd]
  | .rdMsg idx => (asmByte idx).map fun b => [.rdMsg b]
  | .errclr => some [.errclr]
  | .clrAll => some [.clr 0xFF]
  | .txAll seg => (asmByte seg).map fun a => [.tx a 0xFF]
  | .encode s padn =>
    match asmPad padn, asmText s with
    | some b, some l => some (.encBegin b :: l ++ [.encEnd])
    | _, _ => none
  | .encodeAuto s => (asmText s).map fun l => .encBeginA :: l ++ [.encEnd]

/-- The words of a line. -/
def assembleWords (l : AsmLine) : Option (List Word) := (assemble l).map fun is => is.map encode

/-! ### The text of a line (R57, entry 18) -/

/-- Blanks at the front dropped. -/
def skipBlanks : List Char → List Char
  | [] => []
  | c :: l => if c = ' ' then skipBlanks l else c :: l

/-- The value of a digit in base `base`, 10 or 16. -/
def digitValue (base : Nat) (c : Char) : Option Nat :=
  let n := c.toNat
  if 0x30 ≤ n ∧ n ≤ 0x39 then some (n - 0x30)
  else if base = 16 ∧ 0x41 ≤ n ∧ n ≤ 0x46 then some (n - 0x37)
  else if base = 16 ∧ 0x61 ≤ n ∧ n ≤ 0x66 then some (n - 0x57)
  else none

/-- The digits at the front as a number on top of `acc`, and what follows them; none where no digit has been read. -/
def takeDigits (base : Nat) (acc : Option Nat) : List Char → Option (Nat × List Char)
  | [] => acc.map fun n => (n, [])
  | c :: l =>
    match digitValue base c with
    | some d => takeDigits base (some (acc.getD 0 * base + d)) l
    | none => acc.map fun n => (n, c :: l)

/-- A numeric operand: `0xNN` or decimal. -/
def takeNumber : List Char → Option (Nat × List Char)
  | '0' :: 'x' :: l => takeDigits 16 none l
  | l => takeDigits 10 none l

/-- An operand of ENC_CHAR: a number, or a quoted character standing for its code. -/
def takeChar : List Char → Option (Nat × List Char)
  | '\'' :: c :: '\'' :: l => some (c.toNat, l)
  | l => takeNumber l

/-- A quoted text: the codes of its characters, and what follows the closing quote. -/
def takeQuoted : List Char → Option (List Nat × List Char)
  | [] => none
  | c :: l => if c = '"' then some ([], l) else (takeQuoted l).map fun (s, r) => (c.toNat :: s, r)

/-- The comma between two operands. -/
def takeComma (l : List Char) : Option (List Char) :=
  match skipBlanks l with
  | ',' :: r => some (skipBlanks r)
  | _ => none

/-- `x` if nothing but blanks follows. -/
def atEnd (x : AsmLine) (l : List Char) : Option AsmLine := if skipBlanks l = [] then some x else none

/-- One operand to the end of the line. -/
def parseOne (take : List Char → Option (Nat × List Char)) (mk : Nat → AsmLine) (l : List Char) : Option AsmLine :=
  match take l with
  | some (n, r) => atEnd (mk n) r
  | none => none

/-- `seg, dig`. -/
def parseTx (l : List Char) : Option AsmLine :=
  match takeNumber l with
  | some (seg, r) =>
    match takeComma r with
    | some r' => parseOne takeNumber (.tx seg) r'
    | none => none
  | none => none

/-- `"s", padn` or `"s", auto`. -/
def parseEncode : List Char → Option AsmLine
  | '"' :: l =>
    match takeQuoted l with
    | some (s, r) =>
      match takeComma r with
      | some ('a' :: 'u' :: 't' :: 'o' :: r') => atEnd (.encodeAuto s) r'
      | some r' => parseOne takeNumber (.encode s) r'
      | none => none
    | none => none
  | _ => none

/-- The mnemonic at the front, and what follows it. -/
def takeMnemonic : List Char → List Char × List Char
  | [] => ([], [])
  | c :: l => if c = ' ' then ([], c :: l) else ((c :: (takeMnemonic l).1), (takeMnemonic l).2)

/-- A line of assembly text; none is an assembly error. -/
def parseLine (text : List Char) : Option AsmLine :=
  let (m, r) := takeMnemonic (skipBlanks text)
  let ops := skipBlanks r
  if m = "NOP".toList then atEnd .nop ops
  else if m = "TX".toList then parseTx ops
  else if m = "CLR".toList then parseOne takeNumber .clr ops
  else if m = "ENC_BEGIN".toList then parseOne takeNumber .encBegin ops
  else if m = "ENC_BEGINA".toList then atEnd .encBeginA ops
  else if m = "ENC_CHAR".toList then parseOne takeChar .encChar ops
  else if m = "ENC_END".toList then atEnd .encEnd ops
  else if m = "RD_MSG".toList then parseOne takeNumber .rdMsg ops
  else if m = "ERRCLR".toList then atEnd .errclr ops
  else if m = "CLRALL".toList then atEnd .clrAll ops
  else if m = "TXALL".toList then parseOne takeNumber .txAll ops
  else if m = "ENCODE".toList then parseEncode ops
  else none

/-- The words of a line of text (R57, R58). -/
def assembleText (text : List Char) : Option (List Word) :=
  match parseLine text with
  | some l => assembleWords l
  | none => none

end Sys2Proof.Machine
end

