-- ==== Sys2Proof/Safety.lean ====
section
/-! DEFINITION. What claims about the machine are stated in: runs of ticks and what they show, the invariants of a run, and the
encode function of the document as a function on lists. -/

namespace Sys2Proof.Machine

/-! ### Runs -/

/-- Go on with `f` from a next state; a fault or a refusal ends the run. -/
def andThen (o : Host.Outcome State Fault Refusal) (f : State → Host.Outcome State Fault Refusal) :
    Host.Outcome State Fault Refusal :=
  match o with
  | .next t => f t
  | .fault r => .fault r
  | .refused r => .refused r

/-- What `f` lists from a next state; nothing after a fault or a refusal. -/
def listNext {α : Type} (o : Host.Outcome State Fault Refusal) (f : State → List α) : List α :=
  match o with
  | .next t => f t
  | .fault _ => []
  | .refused _ => []

/-- `n` ticks. -/
def run : Nat → State → Host.Outcome State Fault Refusal
  | 0, s => .next s
  | n + 1, s => andThen (step s) (run n)

/-- The host asserts no reset during the next `n` ticks. -/
def NoReset (n : Nat) (s : State) : Prop := ∀ p ∈ s.inputs.take n, p.rst = false

/-- The instance is well-formed and CMD_ERR_CODE is a code the block produces. -/
def Sound (s : State) : Prop := s.cfg.wf = true ∧ s.cmdErr ≤ 4

/-- This tick accepts the word on the port (R31(c)). -/
def Accepts (s : State) : Prop :=
  s.port.rst = false ∧ s.tx.state = .idle ∧ s.stallLeft = 0 ∧ s.port.valid = true

/-- This tick is a tick of a transaction (R31(b)). -/
def Ticks (s : State) : Prop := s.port.rst = false ∧ s.tx.state = .busy

/-- A transaction has just been accepted and the lines are idle (R61, R67). -/
def Fresh (s : State) : Prop :=
  s.tx.state = .busy ∧ s.tx.cnt = 0 ∧ s.lines.sclk = true ∧ s.lines.rclk = true

/-- The lines before a run of `n` ticks and after each of them. -/
def linesTrace : Nat → State → List Lines
  | 0, s => [s.lines]
  | n + 1, s => s.lines :: listNext (step s) (linesTrace n)

/-- How often a line rises along its levels. -/
def rises : List Bool → Nat
  | [] => 0
  | [_] => 0
  | a :: b :: l => (if !a && b then 1 else 0) + rises (b :: l)

/-- How often a line falls along its levels. -/
def falls : List Bool → Nat
  | [] => 0
  | [_] => 0
  | a :: b :: l => (if a && !b then 1 else 0) + falls (b :: l)

/-- A tick as the encoder sees it. -/
inductive EncEvent where
  | reset
  | word (w : Word)
  | nothing
deriving DecidableEq, Repr

/-- Reset, the acceptance of a word, or neither (R31). -/
def encEvent (s : State) : EncEvent :=
  if s.port.rst then .reset
  else if s.tx.state = .idle ∧ s.stallLeft = 0 ∧ s.port.valid = true then .word s.port.word
  else .nothing

/-- What the encoder sees in a run of `n` ticks. -/
def encEvents : Nat → State → List EncEvent
  | 0, _ => []
  | n + 1, s => encEvent s :: listNext (step s) (encEvents n)

/-- What a word does to the encoder (R86 to R88): only the four encoder commands do anything to it (R91). -/
def encOfWord (cfg : Config) (w : Word) (e : Enc) : Enc :=
  match decode w with
  | .ok (.encBegin b) => encBegin cfg (padCount b) e
  | .ok .encBeginA => encBegin cfg cfg.nDigits e
  | .ok (.encChar c) => encStep cfg c e
  | .ok .encEnd => encEnd cfg e
  | .ok .nop | .ok (.tx _ _) | .ok (.clr _) | .ok (.rdMsg _) | .ok .errclr => e
  | .error _ => e

/-- What a tick does to the encoder. -/
def encOfEvent (cfg : Config) (e : Enc) : EncEvent → Enc
  | .reset => Enc.reset
  | .word w => encOfWord cfg w e
  | .nothing => e

/-- The words one after the other, as the block accepts them. -/
def acceptWords : List Word → State → Host.Outcome State Fault Refusal
  | [], s => .next s
  | w :: ws, s => andThen (acceptWord w s) (acceptWords ws)

/-- A word that opens or ends no session: no ENC_BEGIN, ENC_BEGINA or ENC_END. -/
def keepsSession (w : Word) : Bool :=
  match decode w with
  | .ok (.encBegin _) | .ok .encBeginA | .ok .encEnd => false
  | .ok .nop | .ok (.tx _ _) | .ok (.clr _) | .ok (.encChar _) | .ok (.rdMsg _) | .ok .errclr => true
  | .error _ => true

/-- The character a word feeds to the encoder, if it is an ENC_CHAR. -/
def charOf (w : Word) : Option Byte :=
  match decode w with
  | .ok (.encChar c) => some c
  | .ok (.encBegin _) | .ok .encBeginA | .ok .encEnd => none
  | .ok .nop | .ok (.tx _ _) | .ok (.clr _) | .ok (.rdMsg _) | .ok .errclr => none
  | .error _ => none

/-! ### The invariants of a run -/

/-- Line events performed so far in the transaction under way (R66). -/
def eventsDone (s : State) : Nat := (s.tx.cnt + s.cfg.tPhase - 1) / s.cfg.tPhase

/-- Bits of the frame the receiver has taken so far in the transaction under way (R65). -/
def bitsShifted (s : State) : Nat := min 16 (eventsDone s / 3)

/-- The sequencer and the lines (R22, R65, R67): the idle levels while idle, and otherwise the levels that the events performed
so far leave. -/
def TxInv (s : State) : Prop :=
  match s.tx.state with
  | .idle => s.tx.cnt = 0 ∧ s.lines = ⟨s.tx.frame.getLsbD 0, true, true⟩
  | .busy =>
    s.tx.cnt < 50 * s.cfg.tPhase ∧
    s.lines.sclk = !decide (eventsDone s % 3 = 2 ∧ eventsDone s < 48) ∧
    s.lines.rclk = !decide (eventsDone s = 49) ∧
    (0 < eventsDone s → s.lines.data = s.tx.frame.getLsbD (15 - min 15 ((eventsDone s - 1) / 3)))

/-- The encoder (R24 to R29). -/
structure EncInv (cfg : Config) (e : Enc) : Prop where
  /-- ENC_ERR = NONE whenever ENC_MODE != ERR (R25), and only then -/
  err      : e.err = .none ↔ e.mode ≠ .err
  /-- 0 <= MSGLEN <= MSG_MAX (R26) -/
  len      : e.msgLen ≤ cfg.msgMax
  /-- MSGBUF keeps its canonical form -/
  canon    : e.msgBuf.wf
  /-- every byte of the message has been written -/
  written  : ∀ i < e.msgLen, (e.msgBuf.read i).isSome
  /-- no byte outside MSGBUF has been (R38) -/
  inside   : ∀ i, (e.msgBuf.read i).isSome → i < cfg.msgMax
  /-- PADSUF is 0..127 (R18) -/
  pad      : e.padSuf ≤ 127
  /-- LASTFB = 1 only when the last byte is the fallback's glyph, a point merged into it or not (R28) -/
  fallback : e.lastFb = true → 0 < e.msgLen ∧ ∃ f g, cfg.fallbackChar = some f ∧ fontGlyph cfg f = some g ∧
    (msgRead e (e.msgLen - 1) = g ∨ msgRead e (e.msgLen - 1) = g ||| dpBit)
  /-- no message since reset (R24) -/
  fresh    : e.mode = .idle → e.msgLen = 0
  /-- a finished message has no escape open (R88) -/
  closed   : e.mode = .done → e.escSt = .none

/-- The receiver during a transaction (R73 to R75): SR ends in the bits shifted so far, and after the last event LAT holds the
frame. -/
def RxInv (s : State) : Prop :=
  s.tx.state = .busy →
    s.rx.sr.toNat % 2 ^ bitsShifted s = s.tx.frame.toNat / 2 ^ (16 - bitsShifted s) ∧
    (eventsDone s = 50 → s.rx.lat = s.tx.frame)

/-- What holds of the machine after every tick since reset. -/
structure Inv (s : State) : Prop where
  cfg : s.cfg.wf = true
  tx  : TxInv s
  rx  : RxInv s
  enc : EncInv s.cfg s.enc
  /-- CMD_ERR_CODE 5 to 7 is never produced (R32, R102) -/
  cmd : s.cmdErr ≤ 4

/-! ### The encode function -/

/-- A text through the encoder's steps, left to right. -/
def encSteps (cfg : Config) (text : List Byte) (e : Enc) : Enc := text.foldl (fun e c => encStep cfg c e) e

/-- MSGBUF[0..MSGLEN-1]. -/
def message (e : Enc) : List Byte := (List.range e.msgLen).map (msgRead e)

/-- What a session ended with (R90). -/
def sessionResult (e : Enc) : Except EncErr (List Byte) :=
  if e.mode = .done then .ok (message e) else .error e.err

/-- `ENCODE(text, p)` from an encoder state `e` (R90). -/
def encodeFrom (cfg : Config) (text : List Byte) (p : Nat) (e : Enc) : Except EncErr (List Byte) :=
  sessionResult (encEnd cfg (encSteps cfg text (encBegin cfg p e)))

/-- One glyph at the end of the message `m`, if it has room (R79). -/
def pushGlyph (cfg : Config) (m : List Byte) (g : Byte) : Except EncErr (List Byte) :=
  if m.length = cfg.msgMax then .error .overflow else .ok (m ++ [g])

/-- The decimal point merged into the last byte (R81). -/
def mergePoint (m : List Byte) : List Byte := m.dropLast ++ m.getLast?.toList.map (· ||| dpBit)

/-- The document's encode over the whole padded text at once, as a function on lists: `m` is the message so far and `fb` says that
its last byte is a fallback glyph. The text is read by its three character classes (R59, R80), with no escape state. -/
def encodeList (cfg : Config) (m : List Byte) (fb : Bool) : List Byte → Except EncErr (List Byte)
  | [] => .ok m
  | c :: text =>
    if c = cfg.pointChar.code then
      if m = [] then encodeList cfg m fb text
      else if fb && cfg.pointAfterFallback == .lookup && !compatQ cfg then
        match resolve cfg c with
        | none => .error .lookup
        | some (g, fb') =>
          match pushGlyph cfg m g with
          | .error r => .error r
          | .ok m' => encodeList cfg m' fb' text
      else encodeList cfg (mergePoint m) fb text
    else if c = cfg.escChar then
      match text with
      | [] => .error .escape
      | d :: text' =>
        if d = cfg.escChar then
          match resolve cfg d with
          | none => .error .lookup
          | some (g, fb') =>
            match pushGlyph cfg m g with
            | .error r => .error r
            | .ok m' => encodeList cfg m' fb' text'
        else if isHex d then
          match text' with
          | [] => .error .escape
          | h :: text'' =>
            if isHex h then
              match pushGlyph cfg m (hexVal d ++ hexVal h) with
              | .error r => .error r
              | .ok m' => encodeList cfg m' false text''
            else .error .escape
        else .error .escape
    else
      match resolve cfg c with
      | none => .error .lookup
      | some (g, fb') =>
        match pushGlyph cfg m g with
        | .error r => .error r
        | .ok m' => encodeList cfg m' fb' text

/-- `PAD_CHAR^p ++ text ++ PAD_CHAR^p` (R90). -/
def paddedText (cfg : Config) (text : List Byte) (p : Nat) : List Byte :=
  List.replicate p cfg.padChar ++ text ++ List.replicate p cfg.padChar

/-- Does the character add a byte of its own (R93): an ordinary character, the second marker of a pair, the second digit of an
escape, or a point that R81 looks up. -/
def addsByte (cfg : Config) (c : Byte) (e : Enc) : Bool :=
  match e.escSt with
  | .none =>
    if c = cfg.pointChar.code then
      e.msgLen != 0 && e.lastFb && cfg.pointAfterFallback == .lookup && !compatQ cfg
    else c != cfg.escChar
  | .mark => c == cfg.escChar
  | .hex1 => true

/-- The count n_other + n_pair + n_hex + n_pointlookup of R93, over a text taken from encoder state `e`. -/
def bytesAdded (cfg : Config) : List Byte → Enc → Nat
  | [], _ => 0
  | c :: text, e => (if addsByte cfg c e then 1 else 0) + bytesAdded cfg text (encStep cfg c e)

end Sys2Proof.Machine
end

