-- ==== Sys2Proof/Certificates/Slice0/Obligations.lean ====
section
/-! DEFINITION. The statements for the provers. Each docstring names the rule it formalises. No statement rests on a free value. -/

open Sys2Proof Sys2Proof.Machine

/-! ### Encoding -/

/-- R53: the decode table, field by field, and a word that raises a CmdError at decode does nothing else. -/
def Obligations.DecodeFollowsTheDecodeTable : Prop :=
  (∀ a b : Byte,
    decode (mkWord 0x00 a b) = (if a ≠ 0 ∨ b ≠ 0 then .error .reservedNz else .ok .nop) ∧
    decode (mkWord 0x01 a b) = .ok (.tx a b) ∧
    decode (mkWord 0x02 a b) = (if a ≠ 0 then .error .reservedNz else .ok (.clr b)) ∧
    decode (mkWord 0x10 a b) =
      (if a ≠ 0 ∨ 0x80 ≤ b.toNat then .error .reservedNz else .ok (.encBegin b)) ∧
    (b.toNat < 0x80 → padCount b = b.toNat) ∧
    decode (mkWord 0x11 a b) = (if a ≠ 0 then .error .reservedNz else .ok (.encChar b)) ∧
    decode (mkWord 0x12 a b) = (if a ≠ 0 ∨ b ≠ 0 then .error .reservedNz else .ok .encEnd) ∧
    decode (mkWord 0x13 a b) = (if a ≠ 0 ∨ b ≠ 0 then .error .reservedNz else .ok .encBeginA) ∧
    decode (mkWord 0x20 a b) = (if a ≠ 0 then .error .reservedNz else .ok (.rdMsg b)) ∧
    decode (mkWord 0x30 a b) = (if a ≠ 0 ∨ b ≠ 0 then .error .reservedNz else .ok .errclr) ∧
    ∀ op : Byte, op ∉ [0x00, 0x01, 0x02, 0x10, 0x11, 0x12, 0x13, 0x20, 0x30] →
      decode (mkWord op a b) = .error .illegalOp) ∧
  ∀ (w : Word) (c : CmdError) (s : State), decode w = .error c →
    ∃ t, acceptWord w s = .next t ∧ t = { s with cmdErr := t.cmdErr }

/-- R55: the unassigned OPs are those of the four ranges, and their words only record ILLEGAL_OP (code 1). -/
def Obligations.IllegalOpcodesOnlyRecordIllegalOp : Prop :=
  (∀ op : Byte, op ∉ [0x00, 0x01, 0x02, 0x10, 0x11, 0x12, 0x13, 0x20, 0x30] ↔
    (0x03 ≤ op.toNat ∧ op.toNat ≤ 0x0F) ∨ (0x14 ≤ op.toNat ∧ op.toNat ≤ 0x1F) ∨
      (0x21 ≤ op.toNat ∧ op.toNat ≤ 0x2F) ∨ (0x31 ≤ op.toNat ∧ op.toNat ≤ 0xFF)) ∧
  ∀ (op a b : Byte) (s : State), op ∉ [0x00, 0x01, 0x02, 0x10, 0x11, 0x12, 0x13, 0x20, 0x30] →
    acceptWord (mkWord op a b) s = .next { s with cmdErr := if s.cmdErr = 0 then 1 else s.cmdErr }

/-- R54: a nonzero reserved field only records RESERVED_NZ (code 2); the command is not performed. -/
def Obligations.ReservedFieldsOnlyRecordReservedNz : Prop :=
  ∀ (op a b : Byte) (s : State),
    (op ∈ [0x00, 0x02, 0x10, 0x11, 0x12, 0x13, 0x20, 0x30] ∧ a ≠ 0) ∨
    (op ∈ [0x00, 0x12, 0x13, 0x30] ∧ b ≠ 0) ∨ (op = 0x10 ∧ b.getLsbD 7 = true) →
    acceptWord (mkWord op a b) s = .next { s with cmdErr := if s.cmdErr = 0 then 2 else s.cmdErr }

/-- R60: every word is one well-formed command or one of the two decode errors; the rows of the opcode map are disjoint and hold
exactly the words of their command; no two well-formed commands share a word. -/
def Obligations.DecodeIsTotalAndUnambiguous : Prop :=
  (∀ w, (∃ i, decode w = .ok i ∧ i.wf = true) ∨ decode w = .error .illegalOp ∨ decode w = .error .reservedNz) ∧
  opcodeMap.Pairwise (fun r r' => ∀ w, ¬(r.holds w = true ∧ r'.holds w = true)) ∧
  (∀ w, ∀ r ∈ opcodeMap, r.holds w = true ↔ ∃ i, decode w = .ok i ∧ i.mnemonic = r.mnemonic) ∧
  ∀ i j : Instr, i.wf = true → j.wf = true → encode i = encode j → i = j

/-- Round trip both ways, every operand at every value the encoding admits: a word decodes to a command exactly when the command is
well-formed and the word is its word. -/
def Obligations.DecodeInvertsEncode : Prop :=
  (∀ i : Instr, i.wf = true → decode (encode i) = .ok i) ∧
  ∀ (w : Word) (i : Instr), decode w = .ok i → i.wf = true ∧ encode i = w

/-- Words written out from R52, and the reader's numbering of their bits. -/
def Obligations.WrittenWordsDecode : Prop :=
  decodeTableWord 24 0x000000 = some .nop ∧
  decodeTableWord 24 0x013F08 = some (.tx 0x3F 0x08) ∧
  decodeTableWord 24 0x0200FF = some (.clr 0xFF) ∧
  decodeTableWord 24 0x10007F = some (.encBegin 0x7F) ∧
  decodeTableWord 24 0x11002E = some (.encChar 0x2E) ∧
  decodeTableWord 24 0x120000 = some .encEnd ∧
  decodeTableWord 24 0x130000 = some .encBeginA ∧
  decodeTableWord 24 0x2000FE = some (.rdMsg 0xFE) ∧
  decodeTableWord 24 0x300000 = some .errclr ∧
  decodeTableWord 24 0x100080 = none

/-- R58, ENCODE: the assembled words leave the result of the encode function; a text or a count out of range has no words. -/
def Obligations.AssembledEncodeComputesEncode : Prop :=
  ∀ (text : List Nat) (p : Nat) (s : State),
    (assembleWords (.encode text p) = none ↔ 127 < p ∨ ∃ c ∈ text, 255 < c) ∧
    (assembleWords (.encodeAuto text) = none ↔ ∃ c ∈ text, 255 < c) ∧
    (∀ ws, assembleWords (.encode text p) = some ws →
      ∃ t, acceptWords ws s = .next t ∧
        sessionResult t.enc = encodeFrom s.cfg (text.map (BitVec.ofNat 8)) p Enc.reset) ∧
    ∀ ws, assembleWords (.encodeAuto text) = some ws →
      ∃ t, acceptWords ws s = .next t ∧
        sessionResult t.enc = encodeFrom s.cfg (text.map (BitVec.ofNat 8)) s.cfg.nDigits Enc.reset

/-- R57, R58: each line of one command is that command's word, CLRALL is CLR 0xFF, TXALL seg is TX seg, 0xFF; an operand out of
range is an assembly error. -/
def Obligations.AssemblyLinesHaveTheirWords : Prop :=
  assembleWords .nop = some [0x000000] ∧
  assembleWords .encBeginA = some [0x130000] ∧
  assembleWords .encEnd = some [0x120000] ∧
  assembleWords .errclr = some [0x300000] ∧
  assembleWords .clrAll = some [0x0200FF] ∧
  ∀ m n : Nat,
    assembleWords (.tx m n) = (if m ≤ 255 ∧ n ≤ 255 then some [BitVec.ofNat 24 (0x010000 + 256 * m + n)] else none) ∧
    assembleWords (.txAll m) = assembleWords (.tx m 255) ∧
    assembleWords (.clr n) = (if n ≤ 255 then some [BitVec.ofNat 24 (0x020000 + n)] else none) ∧
    assembleWords (.encBegin n) = (if n ≤ 127 then some [BitVec.ofNat 24 (0x100000 + n)] else none) ∧
    assembleWords (.encChar n) = (if n ≤ 255 then some [BitVec.ofNat 24 (0x110000 + n)] else none) ∧
    assembleWords (.rdMsg n) = (if n ≤ 255 then some [BitVec.ofNat 24 (0x200000 + n)] else none)

/-! ### The tick -/

/-- R31(c): a ready tick with a command on the port runs that command. Beside the command's own effect the tick draws a stall, and
the host's next sample and the next free values come up (entries 4, 6 and 12). -/
def Obligations.StepRunsTheDecodedCommand : Prop :=
  ∀ (s : State) (i : Instr), Sound s → Accepts s → decode s.port.word = .ok i →
    ∃ t, exec i s = .next t ∧
      step s = .next { t with
        stallLeft := Config.stallTicks s.draws, inputs := s.inputs.tail, draws := s.draws + 1 }

/-- R31(c), R53, R101: a ready tick with a word that is no command records its error, and with the same tick around it. -/
def Obligations.StepRecordsTheErrorOfAWord : Prop :=
  ∀ (s : State) (c : CmdError), Sound s → Accepts s → decode s.port.word = .error c →
    step s = .next { s with
      cmdErr := if s.cmdErr = 0 then cmdErrorCode c else s.cmdErr,
      stallLeft := Config.stallTicks s.draws, inputs := s.inputs.tail, draws := s.draws + 1 }

/-- Every command completes, in every state and with every operand, and touches neither the lines, the receiver, the configuration,
the stall nor the host's port. That `exec` has no guard on BUSY is the model's inference from R31 (entry 14). -/
def Obligations.EveryCommandCompletes : Prop :=
  ∀ (i : Instr) (s : State), ∃ t, exec i s = .next t ∧
    t = { s with tx := t.tx, enc := t.enc, cmdErr := t.cmdErr, resp := t.resp }

/-- No tick stops the machine while the instance is well-formed and CMD_ERR_CODE is a produced code, and both stay so. -/
def Obligations.SoundMachineNeverStops : Prop :=
  ∀ s : State, Sound s → ∃ t, step s = .next t ∧ Sound t

/-- A configuration is well-formed exactly when (a) to (g) of R6 hold, and an instance that breaks one is refused. R6 does not say
when: that every step is refused, a reset tick included, is the model's inference (entry 3). -/
def Obligations.IllFormedInstanceIsRefused : Prop :=
  (∀ c : Config, c.wf = true ↔
    c.escChar ≠ c.pointChar.code ∧
    (c.escChar ≠ c.padChar ∧ c.pointChar.code ≠ c.padChar) ∧
    isHex c.escChar = false ∧
    c.nDigits = c.digitMasks.length ∧
    (1 ≤ c.nDigits ∧ c.nDigits ≤ 8) ∧
    (1 ≤ c.msgMax ∧ c.msgMax ≤ 255) ∧
    1 ≤ c.tPhase) ∧
  ∀ s : State, step s = .refused .illFormedConfig ↔ s.cfg.wf = false

/-- 93_implementation_defined.md U17: the codes 5, 6 and 7 fault. U17 does not say where in the tick: that a reset tick does not
fault is the model's inference (entry 11). -/
def Obligations.UnproducedErrorCodesFault : Prop :=
  ∀ s : State, s.cfg.wf = true →
    (step s = .fault .cmdErrCodeNeverProduced ↔ s.port.rst = false ∧ s.cmdErr ∈ [5, 6, 7])

/-- R118: a tick that runs has a well-formed configuration, and the host cannot change any parameter. -/
def Obligations.ConfigurationNeverChanges : Prop :=
  ∀ s t : State, step s = .next t → s.cfg.wf = true ∧ t.cfg = s.cfg

/-- R120, R31(b): while `cmd_ready = 0` what the host puts on the port is never seen. -/
def Obligations.PortIsNotSeenWhileNotReady : Prop :=
  ∀ (s : State) (v : Bool) (w : Word), s.port.rst = false → s.cmdReady = false →
    step { s with inputs := ⟨false, v, w⟩ :: s.inputs.tail } = step s

/-- R43, R46: the encoder's state is what the resets and the accepted words, in their order, make of it, however many ticks,
transactions and stalls lie between. -/
def Obligations.EncoderFollowsTheAcceptedWords : Prop :=
  ∀ (n : Nat) (s t : State), run n s = .next t →
    t.enc = (encEvents n s).foldl (encOfEvent s.cfg) s.enc

/-- R113: with no command and no reset the block keeps its state and lines for ever; only a stall under way runs out. -/
def Obligations.QuietBlockKeepsItsState : Prop :=
  ∀ (n : Nat) (s : State), Sound s → s.tx.state = .idle →
    (∀ p ∈ s.inputs.take n, p.rst = false ∧ p.valid = false) →
    run n s = .next { s with
      stallLeft := s.stallLeft - n, inputs := s.inputs.drop n, draws := s.draws + n }

/-- R23: every stall ends. An idle block is ready after the stall ticks still to come, whatever the host offers meanwhile. -/
def Obligations.EveryStallEnds : Prop :=
  ∀ s : State, Sound s → s.tx.state = .idle → NoReset s.stallLeft s →
    ∃ t, run s.stallLeft s = .next t ∧ t.cmdReady = true ∧
      t = { s with stallLeft := 0, inputs := s.inputs.drop s.stallLeft, draws := s.draws + s.stallLeft }

/-! ### Invariants -/

/-- Every tick keeps the invariants of a run, from every state that has them. -/
def Obligations.StepKeepsTheInvariants : Prop :=
  ∀ s t : State, Inv s → step s = .next t → Inv t

/-- The reset state has them, in every well-formed instance. -/
def Obligations.ResetStateHasTheInvariants : Prop :=
  (∀ (c : Config) (rx : Receiver) (inputs : List PortInput) (n : Nat), c.wf = true →
    Inv (State.resetFor c rx inputs n)) ∧ Inv State.reset

/-- R21: no tick but a reset and a tick of a transaction writes a line; between transactions the lines hold SCLK = 1, RCLK = 1 and
the last bit shifted. -/
def Obligations.OnlyTheSequencerAndResetWriteTheLines : Prop :=
  (∀ s t : State, step s = .next t → s.port.rst = false → s.tx.state = .idle → t.lines = s.lines ∧ t.rx = s.rx) ∧
  (∀ s : State, Inv s → s.tx.state = .idle →
    s.lines.sclk = true ∧ s.lines.rclk = true ∧ s.lines.data = s.tx.frame.getLsbD 0) ∧
  ∀ s t : State, step s = .next t → s.port.rst = true → t.lines = ⟨false, true, true⟩ ∧ t.tx.frame = 0

/-- R73, R116: SR changes only when SCLK rises and LAT only when RCLK rises, at any tick. -/
def Obligations.ReceiverChangesOnlyOnRisingEdges : Prop :=
  ∀ s t : State, step s = .next t →
    (t.rx.sr ≠ s.rx.sr → s.lines.sclk = false ∧ t.lines.sclk = true) ∧
    (t.rx.lat ≠ s.rx.lat → s.lines.rclk = false ∧ t.lines.rclk = true)

/-- R30: CMD_ERR_CODE is the code of the first command error since the last reset or ERRCLR. -/
def Obligations.CommandErrorIsSticky : Prop :=
  ∀ s t : State, step s = .next t →
    (s.cmdErr ≠ 0 → t.cmdErr = s.cmdErr ∨
      t.cmdErr = 0 ∧ (s.port.rst = true ∨ Accepts s ∧ decode s.port.word = .ok .errclr)) ∧
    (s.cmdErr = 0 → t.cmdErr ≠ 0 → Accepts s)

/-- R96, R95: a finished message changes only by a new session or a reset, ENC_CHAR and ENC_END being SEQUENCE errors there; an
encoder error is left in the same two ways only, and nothing of the encoder changes meanwhile. -/
def Obligations.OnlyANewSessionOrResetLeavesDoneOrErr : Prop :=
  (∀ s t : State, step s = .next t → s.enc.mode = .done ∨ s.enc.mode = .err →
    t.enc = s.enc ∨ s.port.rst = true ∨
      (Accepts s ∧ (decode s.port.word = .ok .encBeginA ∨ ∃ b, decode s.port.word = .ok (.encBegin b)))) ∧
  ∀ (s : State) (i : Instr), s.enc.mode = .done → i = .encEnd ∨ (∃ c, i = .encChar c) →
    exec i s = .next { s with cmdErr := if s.cmdErr = 0 then 3 else s.cmdErr }

/-! ### Status and ports -/

/-- R32: the fields of STATUS. -/
def Obligations.StatusShowsTheState : Prop :=
  (∀ s : State,
    (s.status.getLsbD 0 = true ↔ s.tx.state = .busy ∨ 0 < s.stallLeft) ∧
    (s.status.extractLsb' 1 2).toNat =
      (match s.enc.mode with | .idle => 0 | .opened => 1 | .done => 2 | .err => 3) ∧
    (s.status.extractLsb' 3 2).toNat =
      (match s.enc.err with | .none => 0 | .lookup => 1 | .escape => 2 | .overflow => 3) ∧
    s.status.extractLsb' 5 3 = s.cmdErr ∧
    (s.enc.msgLen ≤ 255 → (s.status.extractLsb' 8 8).toNat = s.enc.msgLen)) ∧
  State.reset.status = 0x0000

/-- R20, R121: the ports show STATUS and RESP on every tick without a stall, and on every tick BUSY; during a transaction without
a stall they are stable; each pin shows its line. What they show during a stall is a free value (entry 7). -/
def Obligations.PortsShowStatusAndResponse : Prop :=
  ∀ s : State,
    (s.stallLeft = 0 → s.statusPort = s.status ∧ s.respPort = s.resp) ∧
    s.statusPort.getLsbD 0 = s.busy ∧
    s.cmdReady = !s.busy ∧
    (s.dataPin = s.lines.data ∧ s.sclkPin = s.lines.sclk ∧ s.rclkPin = s.lines.rclk) ∧
    ∀ t, Ticks s → s.stallLeft = 0 → step s = .next t →
      t.statusPort.extractLsb' 1 15 = s.statusPort.extractLsb' 1 15 ∧ t.respPort = s.respPort

/-- R33: only a successful RD_MSG writes RESP, and reset. -/
def Obligations.OnlyRdMsgAndResetWriteResp : Prop :=
  ∀ s t : State, step s = .next t →
    t.resp = s.resp ∨ (s.port.rst = true ∧ t.resp = 0x00) ∨
      (Accepts s ∧ ∃ idx : Byte, decode s.port.word = .ok (.rdMsg idx) ∧ idx.toNat < s.cfg.msgMax)

/-! ### Reset -/

/-- R115: the reset values, from any state, whatever else is on the port; the state after reset is the same but for the instance. -/
def Obligations.ResetTickLoadsTheResetValues : Prop :=
  let atReset : State → Prop := fun t =>
    t.lines.data = false ∧ t.lines.sclk = true ∧ t.lines.rclk = true ∧
    t.tx.state = .idle ∧ t.tx.frame = 0x0000 ∧ t.tx.cnt = 0 ∧
    t.enc.mode = .idle ∧ t.enc.err = .none ∧ t.enc.msgLen = 0 ∧
    t.enc.escSt = .none ∧ t.enc.escHi = 0 ∧ t.enc.lastFb = false ∧ t.enc.padSuf = 0 ∧
    t.cmdErr = 0 ∧ t.resp = 0x00 ∧ t.stall = false ∧ t.status = 0x0000 ∧ t.cmdReady = true
  (∀ s : State, s.cfg.wf = true → s.port.rst = true →
    ∃ t, step s = .next t ∧ atReset t ∧ t.cfg = s.cfg) ∧ atReset State.reset

/-- R116: what a reset does to the receiver, and that it never leaves a partial frame in LAT. What SR becomes when SCLK was low is
a free value (entry 10). -/
def Obligations.ResetLeavesNoPartialFrame : Prop :=
  ∀ s : State, Inv s → s.port.rst = true →
    ∃ t, step s = .next t ∧ t.tx.state = .idle ∧ t.lines = ⟨false, true, true⟩ ∧
      (s.lines.sclk = false → t.rx.lat = s.rx.lat) ∧
      (s.lines.rclk = false → s.tx.state = .busy ∧ t.rx.sr = s.tx.frame ∧ t.rx.lat = s.tx.frame) ∧
      (s.lines.sclk = true → s.lines.rclk = true → t.rx = s.rx) ∧
      (t.rx.lat = s.rx.lat ∨ s.tx.state = .busy ∧ t.rx.lat = s.tx.frame)

/-- R119: after a reset tick, `CLR 0xFF` gives a dark display: every digit selected and every segment unlit. -/
def Obligations.BootSequenceDarkensTheDisplay : Prop :=
  ∀ (s : State) (p : PortInput) (l : List PortInput), s.cfg.wf = true →
    p.rst = true → s.inputs = p :: ⟨false, true, 0x0200FF⟩ :: l →
    (∀ q ∈ l.take (50 * s.cfg.tPhase), q.rst = false) →
    ∃ t, run (2 + 50 * s.cfg.tPhase) s = .next t ∧ t.tx.state = .idle ∧
      t.rx.digits = 0xFF ∧ ∀ j < 8, t.rx.segments.getLsbD j = !s.cfg.litLevel

/-! ### The transmitter -/

/-- R62, R61: TX loads the frame, zeroes the count and goes BUSY, for every operand, and changes nothing else. -/
def Obligations.TxStartsATransaction : Prop :=
  ∀ (seg dig : Byte) (s : State),
    exec (.tx seg dig) s = .next { s with
      tx := { state := .busy, frame := (if s.cfg.litLevel then seg else ~~~seg) ++ dig, cnt := 0 } }

/-- R63, R11: on the wire a lit segment bit is LIT_LEVEL and an unlit one its opposite; digit bits are never converted; bit 15 goes
first. -/
def Obligations.PolarityConvertsOnlySegments : Prop :=
  ∀ (cfg : Config) (seg dig : Byte),
    (∀ j < 8, (segw cfg seg).getLsbD j = (if seg.getLsbD j then cfg.litLevel else !cfg.litLevel)) ∧
    (∀ j < 8, (txFrame cfg seg dig).getLsbD (8 + j) = (segw cfg seg).getLsbD j) ∧
    (∀ j < 8, (txFrame cfg seg dig).getLsbD j = dig.getLsbD j) ∧
    ∀ i < 16, lineEvent (txFrame cfg seg dig) (3 * i) = .data ((txFrame cfg seg dig).getLsbD (15 - i))

/-- R64: CLR is TX of the all-unlit byte, polarity and all; a nonzero field A records RESERVED_NZ and transmits nothing. -/
def Obligations.ClrTransmitsTheBlankByte : Prop :=
  (∀ (dig : Byte) (s : State),
    decode (mkWord 0x02 0 dig) = .ok (.clr dig) ∧
    exec (.clr dig) s = exec (.tx 0x00 dig) s ∧
    exec (.clr dig) s = .next { s with
      tx := { state := .busy, frame := (if s.cfg.litLevel then (0x00 : Byte) else 0xFF) ++ dig, cnt := 0 } }) ∧
  (∀ (a dig : Byte) (s : State), a ≠ 0 →
    acceptWord (mkWord 0x02 a dig) s = .next { s with cmdErr := if s.cmdErr = 0 then 2 else s.cmdErr }) ∧
  ∀ s : State, s.cfg.litLevel = false →
    ∃ t, acceptWord 0x0200FF s = .next t ∧ t.tx.frame = 0xFFFF

/-- R70: TX and CLR read only their operands and LIT_LEVEL, and write only the sequencer; a tick of a transaction reads only the
sequencer, the lines and T_PHASE, and writes only the sequencer and the lines (and, through them, the receiver); no encoder command
writes either. -/
def Obligations.TransmitterIsIsolated : Prop :=
  (∀ (i : Instr) (s s' : State), ((∃ seg dig, i = .tx seg dig) ∨ ∃ dig, i = .clr dig) →
    s.cfg.litLevel = s'.cfg.litLevel →
    ∃ t t', exec i s = .next t ∧ exec i s' = .next t' ∧ t.tx = t'.tx ∧ t = { s with tx := t.tx } ∧
      ∀ a, t.enc.msgBuf.read a = s.enc.msgBuf.read a) ∧
  (∀ s s' : State, Sound s → Sound s' → Ticks s → Ticks s' →
    s.cfg.tPhase = s'.cfg.tPhase → s.tx = s'.tx → s.lines = s'.lines →
    ∃ t t', step s = .next t ∧ step s' = .next t' ∧ t.tx = t'.tx ∧ t.lines = t'.lines ∧
      t.enc = s.enc ∧ t.cmdErr = s.cmdErr ∧ t.resp = s.resp) ∧
  ∀ (i : Instr) (s : State), (i = .encBeginA ∨ i = .encEnd ∨ (∃ b, i = .encBegin b) ∨ (∃ c, i = .encChar c) ∨ ∃ n, i = .rdMsg n) →
    ∃ t, exec i s = .next t ∧ t.tx = s.tx ∧ t.lines = s.lines

/-- R66, R65: what a tick of a transaction does, event by event, and that the transaction takes the ticks the rule says: `n` ticks
after it began the count is `n`, so event `k` falls on tick `k * T_PHASE` of it. -/
def Obligations.SequencerTickPerformsTheEvents : Prop :=
  (∀ s : State, Sound s → Ticks s → ∃ t, step s = .next t ∧
    (∀ i < 16, s.tx.cnt = 3 * i * s.cfg.tPhase →
      t.lines = { s.lines with data := s.tx.frame.getLsbD (15 - i) }) ∧
    (∀ i < 16, s.tx.cnt = (3 * i + 1) * s.cfg.tPhase → t.lines = { s.lines with sclk := false }) ∧
    (∀ i < 16, s.tx.cnt = (3 * i + 2) * s.cfg.tPhase → t.lines = { s.lines with sclk := true }) ∧
    (s.tx.cnt = 48 * s.cfg.tPhase → t.lines = { s.lines with rclk := false }) ∧
    (s.tx.cnt = 49 * s.cfg.tPhase → t.lines = { s.lines with rclk := true }) ∧
    (s.tx.cnt % s.cfg.tPhase ≠ 0 → t.lines = s.lines) ∧
    (s.tx.cnt = 50 * s.cfg.tPhase - 1 → t.tx = ⟨.idle, s.tx.frame, 0⟩) ∧
    (s.tx.cnt ≠ 50 * s.cfg.tPhase - 1 → t.tx = ⟨.busy, s.tx.frame, s.tx.cnt + 1⟩)) ∧
  ∀ (s : State) (n : Nat), Sound s → s.tx.state = .busy → s.tx.cnt = 0 → NoReset n s →
    n < 50 * s.cfg.tPhase → ∃ t, run n s = .next t ∧ t.tx = ⟨.busy, s.tx.frame, n⟩

/-- R73: the receiver's answer to a line write, and its outputs. -/
def Obligations.ReceiverShiftsAndLatches : Prop :=
  (∀ s : State,
    (s.lines.sclk = false →
      (lineWrite (.sclk true) s).rx = ⟨s.rx.sr <<< 1 ||| (BitVec.ofBool s.lines.data).setWidth 16, s.rx.lat⟩) ∧
    (s.lines.rclk = false → (lineWrite (.rclk true) s).rx = ⟨s.rx.sr, s.rx.sr⟩) ∧
    (s.lines.sclk = true → (lineWrite (.sclk true) s).rx = s.rx) ∧
    (s.lines.rclk = true → (lineWrite (.rclk true) s).rx = s.rx) ∧
    (lineWrite (.sclk false) s).rx = s.rx ∧ (lineWrite (.rclk false) s).rx = s.rx ∧
    ∀ b, (lineWrite (.data b) s).rx = s.rx) ∧
  ∀ r : Receiver, r.segments ++ r.digits = r.lat

/-- R74, R67, R68: a whole transaction, from any SR and LAT: it takes 50 * T_PHASE ticks, BUSY until the last; then SR and LAT hold
the frame, the lines stand idle with DATA the last bit, and nothing else has changed. -/
def Obligations.TransactionDeliversTheFrame : Prop :=
  ∀ s : State, Sound s → Fresh s → NoReset (50 * s.cfg.tPhase) s →
    (∀ n < 50 * s.cfg.tPhase, ∃ u, run n s = .next u ∧ u.busy = true) ∧
    run (50 * s.cfg.tPhase) s = .next { s with
      rx := ⟨s.tx.frame, s.tx.frame⟩,
      tx := ⟨.idle, s.tx.frame, 0⟩,
      lines := ⟨s.tx.frame.getLsbD 0, true, true⟩,
      stallLeft := s.stallLeft - 50 * s.cfg.tPhase,
      inputs := s.inputs.drop (50 * s.cfg.tPhase),
      draws := s.draws + 50 * s.cfg.tPhase }

/-- R74, R127: from the tick that accepts `TX seg, dig` to the receiver's outputs, `50 * T_PHASE` ticks after the accepting one. -/
def Obligations.TxShowsSegmentsOnDigits : Prop :=
  ∀ (s : State) (seg dig : Byte), Inv s → Accepts s → s.port.word = mkWord 0x01 seg dig →
    NoReset (1 + 50 * s.cfg.tPhase) s →
    ∃ t, run (1 + 50 * s.cfg.tPhase) s = .next t ∧ t.tx.state = .idle ∧
      t.rx.digits = dig ∧ t.rx.segments = segw s.cfg seg ∧
      (Config.stallTicks s.draws ≤ 50 * s.cfg.tPhase → t.cmdReady = true)

/-- R75: until event 49 LAT keeps the previous frame, while SR holds the bits shifted so far after its older bits. -/
def Obligations.LatchHoldsUntilTheLastEvent : Prop :=
  ∀ (s : State) (n : Nat), Sound s → Fresh s → NoReset n s → n ≤ 49 * s.cfg.tPhase →
    ∃ t, run n s = .next t ∧ t.rx.lat = s.rx.lat ∧
      t.rx.sr.toNat =
        (s.rx.sr.toNat * 2 ^ bitsShifted t + s.tx.frame.toNat / 2 ^ (16 - bitsShifted t)) % 2 ^ 16

/-- R69: the edges of a transaction, and none of RCLK before event 48. -/
def Obligations.TransactionHasItsEdges : Prop :=
  ∀ s : State, Sound s → Fresh s → NoReset (50 * s.cfg.tPhase) s →
    let lines := linesTrace (50 * s.cfg.tPhase) s
    rises (lines.map (·.sclk)) = 16 ∧ falls (lines.map (·.sclk)) = 16 ∧
    rises (lines.map (·.rclk)) = 1 ∧ falls (lines.map (·.rclk)) = 1 ∧
    ∀ l ∈ lines.take (48 * s.cfg.tPhase + 1), l.rclk = true

/-! ### The encoder -/

/-- R86: ENC_BEGIN and ENC_BEGINA, by whether PAD_CHAR has a glyph and the padding has room; the frame of MSGBUF (R38): only the
bytes below the padding count are stored to. -/
def Obligations.EncBeginOpensAPaddedSession : Prop :=
  ∀ (s : State) (i : Instr) (p : Nat), s.cfg.wf = true →
    (i = .encBeginA ∧ p = s.cfg.nDigits) ∨ (∃ b, i = .encBegin b ∧ p = (b &&& 0x7F).toNat) →
    ∃ t, exec i s = .next t ∧ t = { s with enc := t.enc } ∧
      t.enc.padSuf = p ∧ t.enc.escSt = .none ∧ t.enc.escHi = 0 ∧
      (p = 0 → t.enc.mode = .opened ∧ t.enc.err = .none ∧ t.enc.msgLen = 0 ∧ t.enc.lastFb = false) ∧
      (∀ g fb, resolve s.cfg s.cfg.padChar = some (g, fb) → p ≤ s.cfg.msgMax →
        t.enc.mode = .opened ∧ t.enc.err = .none ∧ t.enc.msgLen = p ∧ (0 < p → t.enc.lastFb = fb) ∧
        ∀ a < p, msgRead t.enc a = g) ∧
      (∀ g fb, resolve s.cfg s.cfg.padChar = some (g, fb) → s.cfg.msgMax < p →
        t.enc.mode = .err ∧ t.enc.err = .overflow ∧ t.enc.msgLen = s.cfg.msgMax ∧
        ∀ a < s.cfg.msgMax, msgRead t.enc a = g) ∧
      (resolve s.cfg s.cfg.padChar = none → 0 < p →
        t.enc.mode = .err ∧ t.enc.err = .lookup ∧ t.enc.msgLen = 0) ∧
      ∀ a, p ≤ a → t.enc.msgBuf.read a = s.enc.msgBuf.read a

/-- R87, and the frame of ENC_CHAR (R38, R97): RESERVED_NZ for a nonzero field A; swallowed in ERR, SEQUENCE (code 3) in IDLE and DONE; in an open session only the encoder
changes, PADSUF never, and of MSGBUF only the byte stored to: index MSGLEN - 1 for a point that merges, index MSGLEN for every
other character. -/
def Obligations.EncCharActsByModeAndStoresOneByte : Prop :=
  (∀ (a c : Byte) (s : State), decode (mkWord 0x11 0 c) = .ok (.encChar c) ∧
    (a ≠ 0 → acceptWord (mkWord 0x11 a c) s = .next { s with cmdErr := if s.cmdErr = 0 then 2 else s.cmdErr })) ∧
  ∀ (s : State) (c : Byte), ∃ t, exec (.encChar c) s = .next t ∧
    t = { s with enc := t.enc, cmdErr := t.cmdErr } ∧ t.enc.padSuf = s.enc.padSuf ∧
    (s.enc.mode = .err → t = s) ∧
    (s.enc.mode = .idle ∨ s.enc.mode = .done → t = { s with cmdErr := if s.cmdErr = 0 then 3 else s.cmdErr }) ∧
    (s.enc.mode = .opened → t.cmdErr = s.cmdErr ∧ t.enc = encStep s.cfg c s.enc ∧
      if s.enc.escSt = .none ∧ c = s.cfg.pointChar.code ∧
          ¬(s.enc.lastFb = true ∧ s.cfg.pointAfterFallback = .lookup ∧ compatQ s.cfg = false) then
        ∀ a, a ≠ s.enc.msgLen - 1 → t.enc.msgBuf.read a = s.enc.msgBuf.read a
      else ∀ a, a ≠ s.enc.msgLen → t.enc.msgBuf.read a = s.enc.msgBuf.read a)

/-- R76, R77: what a glyph and its resolution are, by the entries of FONT; R85, R79, R106: an ordinary character: its own glyph, or
the fallback's, or LOOKUP, which comes before OVERFLOW. -/
def Obligations.OrdinaryCharacterIsLookedUp : Prop :=
  (∀ (cfg : Config) (c : Byte), fontGlyph cfg c = cfg.font.lookup c) ∧
  (∀ (cfg : Config) (c g : Byte) (fb : Bool), resolve cfg c = some (g, fb) ↔
    (cfg.font.lookup c = some g ∧ fb = false) ∨
      (cfg.font.lookup c = none ∧ fb = true ∧ ∃ f, cfg.fallbackChar = some f ∧ cfg.font.lookup f = some g)) ∧
  ∀ (s : State) (c : Byte), s.enc.mode = .opened → s.enc.escSt = .none →
    c ≠ s.cfg.pointChar.code → c ≠ s.cfg.escChar →
    ∃ t, exec (.encChar c) s = .next t ∧
      (∀ g fb,
        (fontGlyph s.cfg c = some g ∧ fb = false) ∨
          (fontGlyph s.cfg c = none ∧ fb = true ∧
            ∃ f, s.cfg.fallbackChar = some f ∧ fontGlyph s.cfg f = some g) →
        (s.enc.msgLen ≠ s.cfg.msgMax →
          t.enc.mode = .opened ∧ t.enc.err = s.enc.err ∧ t.enc.msgLen = s.enc.msgLen + 1 ∧
          msgRead t.enc s.enc.msgLen = g ∧ t.enc.lastFb = fb ∧ t.enc.escSt = .none) ∧
        (s.enc.msgLen = s.cfg.msgMax → t.enc = { s.enc with mode := .err, err := .overflow })) ∧
      (fontGlyph s.cfg c = none → (∀ f, s.cfg.fallbackChar = some f → fontGlyph s.cfg f = none) →
        t.enc = { s.enc with mode := .err, err := .lookup })

/-- R78: what Q is, and the two codes POINT_CHAR may have (R5); R81: the point character: dropped with nothing before it, merged into the last byte, or, after a fallback glyph in LOOKUP
mode without Q, looked up like any other character. -/
def Obligations.PointMergesIntoTheLastByte : Prop :=
  (PointChar.dot.code = 0x2E ∧ PointChar.colon.code = 0x3A) ∧
  (∀ cfg : Config, compatQ cfg = true ↔
    ∃ f g, cfg.fallbackChar = some f ∧ cfg.font.lookup f = some g ∧ g = cfg.undefGlyph ∧ cfg.pointChar.code = 0x2E) ∧
  ∀ s : State, s.enc.mode = .opened → s.enc.escSt = .none →
    ∃ t, exec (.encChar s.cfg.pointChar.code) s = .next t ∧
      (s.enc.msgLen = 0 → t = s) ∧
      (0 < s.enc.msgLen →
        ¬(s.enc.lastFb = true ∧ s.cfg.pointAfterFallback = .lookup ∧ compatQ s.cfg = false) →
        t.enc = { s.enc with msgBuf := t.enc.msgBuf } ∧
        msgRead t.enc (s.enc.msgLen - 1) = msgRead s.enc (s.enc.msgLen - 1) ||| 0x80) ∧
      (0 < s.enc.msgLen → s.enc.lastFb = true → s.cfg.pointAfterFallback = .lookup → compatQ s.cfg = false →
        (resolve s.cfg s.cfg.pointChar.code = none → t.enc = { s.enc with mode := .err, err := .lookup }) ∧
        ∀ g fb, resolve s.cfg s.cfg.pointChar.code = some (g, fb) →
          (s.enc.msgLen ≠ s.cfg.msgMax →
            t.enc.msgLen = s.enc.msgLen + 1 ∧ msgRead t.enc s.enc.msgLen = g ∧ t.enc.lastFb = fb) ∧
          (s.enc.msgLen = s.cfg.msgMax → t.enc = { s.enc with mode := .err, err := .overflow }))

/-- R84: the hex digits, and no other character, and their values; R82, R83, R80: the escape recogniser, character by character, with
every malformed continuation. -/
def Obligations.EscapesAreRecognised : Prop :=
  (∀ c : Byte,
    (isHex c = true ↔ (0x30 ≤ c.toNat ∧ c.toNat ≤ 0x39) ∨ (0x41 ≤ c.toNat ∧ c.toNat ≤ 0x46) ∨
      (0x61 ≤ c.toNat ∧ c.toNat ≤ 0x66)) ∧
    (0x30 ≤ c.toNat → c.toNat ≤ 0x39 → (hexVal c).toNat = c.toNat - 0x30) ∧
    (0x41 ≤ c.toNat → c.toNat ≤ 0x46 → (hexVal c).toNat = c.toNat - 0x37) ∧
    (0x61 ≤ c.toNat → c.toNat ≤ 0x66 → (hexVal c).toNat = c.toNat - 0x57)) ∧
  ∀ (s : State) (c : Byte), s.cfg.wf = true → s.enc.mode = .opened →
    ∃ t, exec (.encChar c) s = .next t ∧
      (s.enc.escSt = .none → c = s.cfg.escChar → t.enc = { s.enc with escSt := .mark }) ∧
      (s.enc.escSt = .mark → c ≠ s.cfg.escChar → isHex c = true →
        t.enc = { s.enc with escSt := .hex1, escHi := hexVal c }) ∧
      (s.enc.escSt = .mark → c ≠ s.cfg.escChar → isHex c = false →
        t.enc = { s.enc with mode := .err, err := .escape }) ∧
      (s.enc.escSt = .mark → c = s.cfg.escChar →
        (resolve s.cfg c = none → t.enc.mode = .err ∧ t.enc.err = .lookup ∧ t.enc.msgLen = s.enc.msgLen) ∧
        ∀ g fb, resolve s.cfg c = some (g, fb) → s.enc.msgLen ≠ s.cfg.msgMax →
          t.enc.mode = .opened ∧ t.enc.escSt = .none ∧ t.enc.msgLen = s.enc.msgLen + 1 ∧
          msgRead t.enc s.enc.msgLen = g ∧ t.enc.lastFb = fb) ∧
      (s.enc.escSt = .hex1 → isHex c = true → s.enc.msgLen ≠ s.cfg.msgMax →
        t.enc.mode = .opened ∧ t.enc.escSt = .none ∧ t.enc.msgLen = s.enc.msgLen + 1 ∧
        (msgRead t.enc s.enc.msgLen).toNat = 16 * s.enc.escHi.toNat + (hexVal c).toNat ∧ t.enc.lastFb = false) ∧
      (s.enc.escSt = .hex1 → isHex c = false → t.enc = { s.enc with mode := .err, err := .escape }) ∧
      (s.enc.msgLen = s.cfg.msgMax →
        (s.enc.escSt = .hex1 ∧ isHex c = true) ∨
          (s.enc.escSt = .mark ∧ c = s.cfg.escChar ∧ (resolve s.cfg c).isSome = true) →
        t.enc.mode = .err ∧ t.enc.err = .overflow ∧ t.enc.msgLen = s.enc.msgLen ∧ t.enc.msgBuf = s.enc.msgBuf)

/-- R59, R83, R84: the marker and two hex digits, in either letter case, append the raw byte they write, whatever FONT holds; a marker
followed by a character that is neither the marker nor in the three ranges of R84, or by a hex digit and such a character or the
marker, is ESCAPE and appends nothing. -/
def Obligations.LiteralEscapeEmitsItsByte : Prop :=
  let hexDigit : Byte → Prop := fun c => (0x30 ≤ c.toNat ∧ c.toNat ≤ 0x39) ∨ (0x41 ≤ c.toNat ∧ c.toNat ≤ 0x46) ∨
    (0x61 ≤ c.toNat ∧ c.toNat ≤ 0x66)
  (∀ (s : State) (hi lo : Nat) (x y : Byte), s.cfg.wf = true → s.enc.mode = .opened → s.enc.escSt = .none →
    s.enc.msgLen < s.cfg.msgMax → hi < 16 → lo < 16 →
    (∀ n c, (n, c) ∈ [(hi, x), (lo, y)] →
      (n < 10 ∧ c = BitVec.ofNat 8 (0x30 + n)) ∨
      (10 ≤ n ∧ (c = BitVec.ofNat 8 (0x41 + (n - 10)) ∨ c = BitVec.ofNat 8 (0x61 + (n - 10))))) →
    ∃ t, acceptWords [mkWord 0x11 0 s.cfg.escChar, mkWord 0x11 0 x, mkWord 0x11 0 y] s = .next t ∧
      t.enc.mode = .opened ∧ t.enc.escSt = .none ∧ t.enc.msgLen = s.enc.msgLen + 1 ∧
      msgRead t.enc s.enc.msgLen = BitVec.ofNat 8 (16 * hi + lo) ∧ t.enc.lastFb = false) ∧
  (∀ (s : State) (x : Byte), s.cfg.wf = true → s.enc.mode = .opened → s.enc.escSt = .none →
    x ≠ s.cfg.escChar → ¬hexDigit x →
    ∃ t, acceptWords [mkWord 0x11 0 s.cfg.escChar, mkWord 0x11 0 x] s = .next t ∧
      t.enc.mode = .err ∧ t.enc.err = .escape ∧ t.enc.msgLen = s.enc.msgLen ∧ t.enc.msgBuf = s.enc.msgBuf) ∧
  ∀ (s : State) (x y : Byte), s.cfg.wf = true → s.enc.mode = .opened → s.enc.escSt = .none → hexDigit x → ¬hexDigit y →
    ∃ t, acceptWords [mkWord 0x11 0 s.cfg.escChar, mkWord 0x11 0 x, mkWord 0x11 0 y] s = .next t ∧
      t.enc.mode = .err ∧ t.enc.err = .escape ∧ t.enc.msgLen = s.enc.msgLen ∧ t.enc.msgBuf = s.enc.msgBuf

/-- R88: ENC_END by mode: RESERVED_NZ for a nonzero field; SEQUENCE in IDLE and DONE, swallowed in ERR; in an open session the closing blanks, and then DONE, or
ESCAPE for an escape left open, or the error of the blanks. -/
def Obligations.EncEndClosesTheSession : Prop :=
  (decode 0x120000 = .ok .encEnd ∧ ∀ (a b : Byte) (s : State), a ≠ 0 ∨ b ≠ 0 →
    acceptWord (mkWord 0x12 a b) s = .next { s with cmdErr := if s.cmdErr = 0 then 2 else s.cmdErr }) ∧
  ∀ s : State,
    (s.enc.mode = .err → exec .encEnd s = .next s) ∧
    (s.enc.mode = .idle ∨ s.enc.mode = .done →
      exec .encEnd s = .next { s with cmdErr := if s.cmdErr = 0 then 3 else s.cmdErr }) ∧
    (s.enc.mode = .opened → ∃ t, exec .encEnd s = .next t ∧ t = { s with enc := t.enc } ∧
      let e := encSteps s.cfg (List.replicate s.enc.padSuf s.cfg.padChar) s.enc
      (e.mode = .opened → e.escSt = .none → t.enc = { e with mode := .done }) ∧
      (e.mode = .opened → e.escSt ≠ .none → t.enc = { e with mode := .err, err := .escape }) ∧
      (e.mode ≠ .opened → t.enc = e))

/-- R88: the closing blanks of a session with no escape open: they are appended, or as many as there is room for and then OVERFLOW, or
LOOKUP for a blank with no glyph; a blank that meets an open escape and is no hex digit is ESCAPE; and the frame of MSGBUF: only the
bytes from MSGLEN on, below MSGLEN + PADSUF, are stored to. -/
def Obligations.EncEndAppendsThePadding : Prop :=
  ∀ s : State, s.cfg.wf = true → s.enc.mode = .opened →
    ∃ t, exec .encEnd s = .next t ∧ t.enc.padSuf = s.enc.padSuf ∧
      (∀ g fb, s.enc.escSt = .none → resolve s.cfg s.cfg.padChar = some (g, fb) →
        s.enc.msgLen + s.enc.padSuf ≤ s.cfg.msgMax →
        t.enc.mode = .done ∧ t.enc.msgLen = s.enc.msgLen + s.enc.padSuf ∧
        ∀ a, s.enc.msgLen ≤ a → a < t.enc.msgLen → msgRead t.enc a = g) ∧
      (∀ g fb, s.enc.escSt = .none → resolve s.cfg s.cfg.padChar = some (g, fb) →
        s.enc.msgLen ≤ s.cfg.msgMax → s.cfg.msgMax < s.enc.msgLen + s.enc.padSuf →
        t.enc.mode = .err ∧ t.enc.err = .overflow ∧ t.enc.msgLen = s.cfg.msgMax ∧
        ∀ a, s.enc.msgLen ≤ a → a < s.cfg.msgMax → msgRead t.enc a = g) ∧
      (s.enc.escSt = .none → resolve s.cfg s.cfg.padChar = none → 0 < s.enc.padSuf →
        t.enc.mode = .err ∧ t.enc.err = .lookup ∧ t.enc.msgLen = s.enc.msgLen) ∧
      (s.enc.escSt ≠ .none → isHex s.cfg.padChar = false → t.enc.mode = .err ∧ t.enc.err = .escape) ∧
      ∀ a, (a < s.enc.msgLen ∨ s.enc.msgLen + s.enc.padSuf ≤ a) →
        t.enc.msgBuf.read a = s.enc.msgBuf.read a

/-- R89, R45: RD_MSG, for every index and in every mode: RANGE (code 4) from MSG_MAX on, the byte below MSGLEN, 0x00 between; nothing
but RESP or CMD_ERR_CODE changes, and no byte of MSGBUF; RESERVED_NZ for a nonzero field A. -/
def Obligations.RdMsgReadsOneByte : Prop :=
  (∀ (a idx : Byte) (s : State), decode (mkWord 0x20 0 idx) = .ok (.rdMsg idx) ∧
    (a ≠ 0 → acceptWord (mkWord 0x20 a idx) s = .next { s with cmdErr := if s.cmdErr = 0 then 2 else s.cmdErr })) ∧
  ∀ (s : State) (idx : Byte),
    (s.cfg.msgMax ≤ idx.toNat →
      exec (.rdMsg idx) s = .next { s with cmdErr := if s.cmdErr = 0 then 4 else s.cmdErr }) ∧
    (idx.toNat < s.cfg.msgMax → idx.toNat < s.enc.msgLen →
      ∀ v, s.enc.msgBuf.read idx.toNat = some v → exec (.rdMsg idx) s = .next { s with resp := v }) ∧
    (idx.toNat < s.cfg.msgMax → s.enc.msgLen ≤ idx.toNat → exec (.rdMsg idx) s = .next { s with resp := 0x00 }) ∧
    ∃ t, exec (.rdMsg idx) s = .next t ∧ t = { s with resp := t.resp, cmdErr := t.cmdErr } ∧
      ∀ a, t.enc.msgBuf.read a = s.enc.msgBuf.read a

/-! ### Control and errors -/

/-- R98: NOP. -/
def Obligations.NopDoesNothing : Prop :=
  (∀ s : State, acceptWord 0x000000 s = .next s ∧ exec .nop s = .next s) ∧
  (∀ (a b : Byte) (s : State), a ≠ 0 ∨ b ≠ 0 →
    acceptWord (mkWord 0x00 a b) s = .next { s with cmdErr := if s.cmdErr = 0 then 2 else s.cmdErr }) ∧
  ∀ s : State, s.port = ⟨false, true, 0x000000⟩ → s.busy = true →
    ¬Accepts s ∧ step s = step { s with inputs := idlePort :: s.inputs.tail }

/-- R99: ERRCLR clears CMD_ERR_CODE and nothing else; with a nonzero field it clears nothing. -/
def Obligations.ErrclrClearsTheCommandError : Prop :=
  (∀ s : State, acceptWord 0x300000 s = .next { s with cmdErr := 0 } ∧ exec .errclr s = .next { s with cmdErr := 0 }) ∧
  (∀ s t : State, exec .errclr s = .next t →
    t.status.extractLsb' 5 3 = 0 ∧ t.status.extractLsb' 0 5 = s.status.extractLsb' 0 5 ∧
    t.status.extractLsb' 8 8 = s.status.extractLsb' 8 8 ∧ (s.cmdErr = 0 → t = s)) ∧
  (∀ (a b : Byte) (s : State), a ≠ 0 ∨ b ≠ 0 →
    acceptWord (mkWord 0x30 a b) s = .next { s with cmdErr := if s.cmdErr = 0 then 2 else s.cmdErr }) ∧
  ∀ s : State, s.status = 0x0060 → ∃ t, acceptWord 0x300000 s = .next t ∧ t.status = 0x0000

/-- R102, R105: which word raises which command error, in a block that has recorded none; a word that raises one does nothing else. -/
def Obligations.CommandErrorsHaveTheirCauses : Prop :=
  ∀ (w : Word) (s : State), s.cmdErr = 0 → ∃ t, acceptWord w s = .next t ∧
    (t.cmdErr = 1 ↔ decode w = .error .illegalOp) ∧
    (t.cmdErr = 2 ↔ decode w = .error .reservedNz) ∧
    (t.cmdErr = 3 ↔ (s.enc.mode = .idle ∨ s.enc.mode = .done) ∧
      (decode w = .ok .encEnd ∨ ∃ c, decode w = .ok (.encChar c))) ∧
    (t.cmdErr = 4 ↔ ∃ idx, decode w = .ok (.rdMsg idx) ∧ s.cfg.msgMax ≤ idx.toNat) ∧
    t.cmdErr ≤ 4 ∧
    (t.cmdErr ≠ 0 → t = { s with cmdErr := t.cmdErr })

/-- R103, R95: a character that fails leaves the message as it stood just before it, and every later character of the text changes
nothing. -/
def Obligations.FirstEncoderErrorWins : Prop :=
  (∀ (cfg : Config) (c : Byte) (e : Enc), e.mode = .opened → (encStep cfg c e).mode = .err →
    (encStep cfg c e).err ≠ .none ∧
    message (encStep cfg c e) = message e ∧ (encStep cfg c e).msgBuf = e.msgBuf ∧
    (encStep cfg c e).lastFb = e.lastFb ∧ (encStep cfg c e).padSuf = e.padSuf) ∧
  ∀ (cfg : Config) (text : List Byte) (e : Enc), e.mode = .err →
    encSteps cfg text e = e ∧ encEnd cfg e = e

/-! ### The encode function -/

/-- R90: the result does not depend on the encoder's state before ENC_BEGIN, and ENCODE is the fold of encStep over the padded text
followed by the end-of-text check. -/
def Obligations.EncodeIsAFoldOverThePaddedText : Prop :=
  ∀ (cfg : Config) (text : List Byte) (p : Nat) (e e' : Enc),
    encodeFrom cfg text p e = encodeFrom cfg text p e' ∧
    encodeFrom cfg text p e = sessionResult (encClose (encSteps cfg (paddedText cfg text p) (encOpen p e')))

/-- The streaming encoder computes the document's encode over the whole padded text, which reads an escape at once and holds no
state (R59, R79 to R85, R90). -/
def Obligations.StreamComputesTheListFunction : Prop :=
  ∀ (cfg : Config) (text : List Byte) (p : Nat) (e : Enc),
    encodeFrom cfg text p e = encodeList cfg [] false (paddedText cfg text p)

/-- R91: the command sequence computes ENCODE, from any state, with any other commands and illegal words between. -/
def Obligations.CommandsComputeEncode : Prop :=
  ∀ (s : State) (w0 : Word) (p : Nat) (ws : List Word),
    (decode w0 = .ok .encBeginA ∧ p = s.cfg.nDigits) ∨ (∃ b, decode w0 = .ok (.encBegin b) ∧ p = b.toNat) →
    (∀ w ∈ ws, keepsSession w = true) →
    ∃ t, acceptWords (w0 :: ws ++ [0x120000]) s = .next t ∧
      (∀ m, encodeFrom s.cfg (ws.filterMap charOf) p Enc.reset = .ok m ↔
        t.enc.mode = .done ∧ t.enc.msgLen = m.length ∧ message t.enc = m) ∧
      ∀ r, encodeFrom s.cfg (ws.filterMap charOf) p Enc.reset = .error r ↔
        t.enc.mode = .err ∧ t.enc.err = r

/-- R92: padding consequences, for a buffer with room for the bytes named. -/
def Obligations.PaddingIsOrdinaryText : Prop :=
  ∀ (cfg : Config) (e : Enc), cfg.wf = true →
    (∀ g, fontGlyph cfg cfg.padChar = some g → 2 ≤ cfg.msgMax →
      encodeFrom cfg [cfg.pointChar.code] 1 e = .ok [g ||| 0x80, g]) ∧
    encodeFrom cfg [cfg.pointChar.code] 0 e = .ok [] ∧
    (∀ c g g', c ≠ cfg.pointChar.code → c ≠ cfg.escChar → fontGlyph cfg cfg.padChar = some g →
      fontGlyph cfg c = some g' → isHex cfg.padChar = false → 2 ≤ cfg.msgMax →
      encodeFrom cfg [c, cfg.escChar] 1 e = .error .escape) ∧
    ∀ text p, fontGlyph cfg cfg.padChar = none → cfg.fallbackChar = none → 0 < p →
      encodeFrom cfg text p e = .error .lookup

/-- R93: the length law, for a PAD_CHAR that is no hex digit (entry 15). -/
def Obligations.EncodedLengthLaw : Prop :=
  ∀ (cfg : Config) (text : List Byte) (p : Nat) (e : Enc) (m : List Byte), cfg.wf = true → isHex cfg.padChar = false →
    encodeFrom cfg text p e = .ok m →
    m.length = 2 * p + bytesAdded cfg text (encBegin cfg p e) ∧ m.length ≤ 2 * p + text.length

/-- R94: with a fallback in FONT no text ends in LOOKUP. -/
def Obligations.FallbackRulesOutLookup : Prop :=
  ∀ (cfg : Config) (f g : Byte) (text : List Byte) (p : Nat) (e : Enc),
    cfg.fallbackChar = some f → fontGlyph cfg f = some g →
    encodeFrom cfg text p e ≠ .error .lookup
end

