-- ==== Sys2Proof/Laws/Memory.lean ====
section
/-! SUPPORT. MSGBUF as a list of cells: a read after a write, and the canonical form. -/

namespace Sys2Proof.Machine

@[simp] theorem Memory.read_nil (i : Nat) : Memory.read [] i = none := rfl

theorem Memory.read_cons (j : Nat) (b : Byte) (m : Memory) (i : Nat) :
    Memory.read ((j, b) :: m) i = if j = i then some b else Memory.read m i := rfl

/-- A write is read back, and no other index sees it. -/
theorem Memory.read_write (m : Memory) (i : Nat) (v : Byte) (a : Nat) :
    (Memory.write m i v).read a = if a = i then some v else Memory.read m a := by
  induction m with
  | nil => simp [Memory.write, Memory.read, eq_comm]
  | cons cell m ih =>
    obtain ⟨j, b⟩ := cell
    simp only [Memory.write]
    split
    · simp [Memory.read_cons, eq_comm]
    · split
      · subst i
        by_cases h : j = a
        · simp [Memory.read_cons, h]
        · simp [Memory.read_cons, h, Ne.symm h]
      · simp only [Memory.read_cons, ih]
        by_cases h : j = a
        · subst a; simp; omega
        · simp [h]

@[simp] theorem Memory.read_write_same (m : Memory) (i : Nat) (v : Byte) :
    (Memory.write m i v).read i = some v := by simp [Memory.read_write]

theorem Memory.read_write_other (m : Memory) {i a : Nat} (v : Byte) (h : a ≠ i) :
    (Memory.write m i v).read a = Memory.read m a := by simp [Memory.read_write, h]

/-- The indices of a written memory are the old ones and the index written. -/
theorem Memory.mem_indices_write {m : Memory} {i : Nat} {v : Byte} {a : Nat}
    (h : a ∈ (Memory.write m i v).map Prod.fst) : a = i ∨ a ∈ m.map Prod.fst := by
  induction m with
  | nil => simpa [Memory.write] using h
  | cons cell m ih =>
    obtain ⟨j, b⟩ := cell
    simp only [Memory.write] at h
    split at h
    · simpa using h
    · split at h
      · simp_all
      · simp only [List.map_cons, List.mem_cons] at h ⊢
        rcases h with h | h
        · simp [h]
        · rcases ih h with h | h <;> simp [h]

/-- A write keeps the canonical form. -/
theorem Memory.write_wf {m : Memory} (h : m.wf) (i : Nat) (v : Byte) : (Memory.write m i v).wf := by
  induction m with
  | nil => simp [Memory.write, Memory.wf]
  | cons cell m ih =>
    obtain ⟨j, b⟩ := cell
    simp only [Memory.wf, List.map_cons, List.pairwise_cons] at h
    simp only [Memory.write]
    split
    · rename_i hij
      simp only [Memory.wf, List.map_cons, List.pairwise_cons, List.mem_cons]
      refine ⟨?_, h⟩
      rintro a (rfl | ha)
      · exact hij
      · exact lt_trans hij (h.1 a ha)
    · split
      · subst i; simpa [Memory.wf] using h
      · simp only [Memory.wf, List.map_cons, List.pairwise_cons]
        refine ⟨fun a ha => ?_, ih h.2⟩
        rcases Memory.mem_indices_write ha with rfl | ha
        · omega
        · exact h.1 a ha

end Sys2Proof.Machine
end

