-- ==== Sys2Proof/Laws/Ops.lean ====
section
/-! SUPPORT. What the shared operations do, each said once: recording errors, MSGBUF through the encoder, the emit operation. -/

namespace Sys2Proof.Machine

/-- Recording a command error touches CMD_ERR_CODE alone, and keeps the first (R101). -/
theorem raiseCmdError_eq (c : CmdError) (s : State) :
    raiseCmdError c s = { s with cmdErr := if s.cmdErr = 0 then cmdErrorCode c else s.cmdErr } := by
  unfold raiseCmdError
  split <;> rfl

/-- Every command error has one of the codes 1 to 4 (R102). -/
theorem cmdErrorCode_range (c : CmdError) : 1 ≤ cmdErrorCode c ∧ cmdErrorCode c ≤ 4 := by cases c <;> decide

theorem cmdErrorCode_injective {c d : CmdError} (h : cmdErrorCode c = cmdErrorCode d) : c = d := by
  cases c <;> cases d <;> first | rfl | (exact absurd h (by decide))

@[simp] theorem encFail_mode (r : EncErr) (e : Enc) : (encFail r e).mode = .err := rfl
@[simp] theorem encFail_err (r : EncErr) (e : Enc) : (encFail r e).err = r := rfl
@[simp] theorem encFail_msgLen (r : EncErr) (e : Enc) : (encFail r e).msgLen = e.msgLen := rfl
@[simp] theorem encFail_msgBuf (r : EncErr) (e : Enc) : (encFail r e).msgBuf = e.msgBuf := rfl
@[simp] theorem encFail_escSt (r : EncErr) (e : Enc) : (encFail r e).escSt = e.escSt := rfl
@[simp] theorem encFail_lastFb (r : EncErr) (e : Enc) : (encFail r e).lastFb = e.lastFb := rfl
@[simp] theorem encFail_padSuf (r : EncErr) (e : Enc) : (encFail r e).padSuf = e.padSuf := rfl
@[simp] theorem msgWrite_mode (i : Nat) (v : Byte) (e : Enc) : (msgWrite i v e).mode = e.mode := rfl
@[simp] theorem msgWrite_err (i : Nat) (v : Byte) (e : Enc) : (msgWrite i v e).err = e.err := rfl
@[simp] theorem msgWrite_msgLen (i : Nat) (v : Byte) (e : Enc) : (msgWrite i v e).msgLen = e.msgLen := rfl
@[simp] theorem msgWrite_msgBuf (i : Nat) (v : Byte) (e : Enc) : (msgWrite i v e).msgBuf = e.msgBuf.write i v := rfl
@[simp] theorem msgWrite_escSt (i : Nat) (v : Byte) (e : Enc) : (msgWrite i v e).escSt = e.escSt := rfl
@[simp] theorem msgWrite_lastFb (i : Nat) (v : Byte) (e : Enc) : (msgWrite i v e).lastFb = e.lastFb := rfl
@[simp] theorem msgWrite_padSuf (i : Nat) (v : Byte) (e : Enc) : (msgWrite i v e).padSuf = e.padSuf := rfl

/-- What MSGBUF reads after one of its bytes is written. -/
theorem msgRead_of_write {e e' : Enc} {i : Nat} {v : Byte} (h : e'.msgBuf = e.msgBuf.write i v) (a : Nat) :
    msgRead e' a = if a = i then v else msgRead e a := by
  unfold msgRead
  rw [h, Memory.read_write]
  split <;> rfl

@[simp] theorem msgRead_msgWrite (i : Nat) (v : Byte) (e : Enc) (a : Nat) :
    msgRead (msgWrite i v e) a = if a = i then v else msgRead e a := msgRead_of_write rfl a

/-- Encoders with the same MSGBUF read the same. -/
theorem msgRead_congr {e e' : Enc} (h : e'.msgBuf = e.msgBuf) (a : Nat) : msgRead e' a = msgRead e a := by
  unfold msgRead
  rw [h]

/-- A glyph that resolves with the fallback flag is the fallback's (R77). -/
theorem resolve_fallback {cfg : Config} {c g : Byte} (h : resolve cfg c = some (g, true)) :
    ∃ f, cfg.fallbackChar = some f ∧ fontGlyph cfg f = some g := by
  unfold resolve at h
  split at h
  · simp at h
  · split at h
    · rename_i f hf
      exact ⟨f, hf, by simpa using h⟩
    · simp at h

/-- A glyph of the font resolves to itself (R77). -/
theorem resolve_of_font {cfg : Config} {c g : Byte} (h : fontGlyph cfg c = some g) : resolve cfg c = some (g, false) := by
  simp [resolve, h]

/-- With a fallback in the font every character resolves (R77, R94). -/
theorem resolve_isSome_of_fallback {cfg : Config} {f g : Byte} (hf : cfg.fallbackChar = some f)
    (hg : fontGlyph cfg f = some g) (c : Byte) : (resolve cfg c).isSome := by
  unfold resolve
  split <;> simp [hf, hg]

/-- The conditions of R6 that the encoder's proofs use. -/
theorem wf_chars {cfg : Config} (h : cfg.wf = true) :
    cfg.escChar ≠ cfg.pointChar.code ∧ cfg.escChar ≠ cfg.padChar ∧ cfg.pointChar.code ≠ cfg.padChar ∧
      isHex cfg.escChar = false := by
  simp only [Config.wf, Bool.and_eq_true, bne_iff_ne, ne_eq, Bool.not_eq_true'] at h
  tauto

/-- The bounds of R6. -/
theorem wf_bounds {cfg : Config} (h : cfg.wf = true) :
    1 ≤ cfg.nDigits ∧ cfg.nDigits ≤ 8 ∧ 1 ≤ cfg.msgMax ∧ cfg.msgMax ≤ 255 ∧ 1 ≤ cfg.tPhase := by
  simp only [Config.wf, Bool.and_eq_true, decide_eq_true_eq] at h
  tauto

theorem padCount_le (b : Byte) : padCount b ≤ 127 := by
  have := (b.extractLsb' 0 7).isLt
  unfold padCount
  omega

end Sys2Proof.Machine
end

