-- ==== Sys2Proof/Laws/Encoder.lean ====
section
/-! SUPPORT. What one character can do to the encoder, said once, and the session loops. -/

namespace Sys2Proof.Machine

/-- `encStep` is a no-op outside an open session (R80). -/
theorem encStep_of_not_opened {cfg : Config} {c : Byte} {e : Enc} (h : e.mode ≠ .opened) : encStep cfg c e = e := by
  unfold encStep
  split <;> first | rfl | contradiction

theorem encPad_of_not_opened {cfg : Config} {e : Enc} (h : e.mode ≠ .opened) (n : Nat) : encPad cfg n e = e := by
  induction n with
  | zero => rfl
  | succ n ih => rw [encPad, encStep_of_not_opened h, ih]

theorem encClose_of_not_opened {e : Enc} (h : e.mode ≠ .opened) : encClose e = e := by
  unfold encClose
  split <;> first | rfl | contradiction

theorem encEnd_of_not_opened {cfg : Config} {e : Enc} (h : e.mode ≠ .opened) : encEnd cfg e = e := by
  rw [encEnd, encPad_of_not_opened h, encClose_of_not_opened h]

/-- What one character can do to an open session `e`. -/
inductive EncMove (cfg : Config) (e : Enc) : Enc → Prop where
  /-- the escape state moves, or nothing at all -/
  | escape (st : EscState) (hi : BitVec 4) : EncMove cfg e { e with escSt := st, escHi := hi }
  /-- the session fails and keeps its message -/
  | failed (st : EscState) (r : EncErr) (hr : r ≠ .none) : EncMove cfg e { e with escSt := st, mode := .err, err := r }
  /-- a byte is appended, with the fallback flag only for the fallback's glyph -/
  | appended (st : EscState) (g : Byte) (fb : Bool) (room : e.msgLen ≠ cfg.msgMax)
      (hfb : fb = true → ∃ f, cfg.fallbackChar = some f ∧ fontGlyph cfg f = some g) :
      EncMove cfg e
        { e with escSt := st, msgBuf := e.msgBuf.write e.msgLen g, msgLen := e.msgLen + 1, lastFb := fb }
  /-- the point is merged into the last byte -/
  | merged (some : 0 < e.msgLen) :
      EncMove cfg e { e with msgBuf := e.msgBuf.write (e.msgLen - 1) (msgRead e (e.msgLen - 1) ||| dpBit) }

theorem encEmit_move (cfg : Config) (e : Enc) (st : EscState) (g : Byte) (fb : Bool)
    (hfb : fb = true → ∃ f, cfg.fallbackChar = some f ∧ fontGlyph cfg f = some g) :
    EncMove cfg e (encEmit cfg g fb { e with escSt := st }) := by
  unfold encEmit
  split
  · exact .failed st .overflow (by decide)
  · rename_i h
    exact .appended st g fb h hfb

theorem encOrdinary_move (cfg : Config) (c : Byte) (e : Enc) (st : EscState) :
    EncMove cfg e (encOrdinary cfg c { e with escSt := st }) := by
  unfold encOrdinary
  split
  · exact .failed st .lookup (by decide)
  · rename_i g fb hr
    exact encEmit_move cfg e st g fb fun h => resolve_fallback (by rw [hr, h])

/-- One character does one of these moves. -/
theorem encStep_move (cfg : Config) (c : Byte) (e : Enc) : EncMove cfg e (encStep cfg c e) := by
  have same : EncMove cfg e e := .escape e.escSt e.escHi
  have ordinary (d : Byte) : EncMove cfg e (encOrdinary cfg d e) := encOrdinary_move cfg d e e.escSt
  unfold encStep
  split
  · split
    · split
      · unfold encPoint
        split
        · exact same
        · rename_i h
          split
          · exact ordinary c
          · exact .merged (Nat.pos_of_ne_zero h)
      · split
        · exact .escape .mark e.escHi
        · exact ordinary c
    · unfold encAfterMark
      split
      · exact encOrdinary_move cfg _ e .none
      · split
        · exact .escape .hex1 (hexVal c)
        · exact .failed e.escSt .escape (by decide)
    · unfold encAfterHex1
      split
      · exact encEmit_move cfg e .none _ false (by simp)
      · exact .failed e.escSt .escape (by decide)
  all_goals exact same

/-- PADSUF is set by ENC_BEGIN alone (R29). -/
@[simp] theorem encStep_padSuf (cfg : Config) (c : Byte) (e : Enc) : (encStep cfg c e).padSuf = e.padSuf := by
  have move := encStep_move cfg c e
  generalize encStep cfg c e = e' at move
  cases move <;> rfl

@[simp] theorem encPad_padSuf (cfg : Config) (n : Nat) (e : Enc) : (encPad cfg n e).padSuf = e.padSuf := by
  induction n generalizing e with
  | zero => rfl
  | succ n ih => rw [encPad, ih, encStep_padSuf]

@[simp] theorem encClose_padSuf (e : Enc) : (encClose e).padSuf = e.padSuf := by
  unfold encClose
  split
  · split <;> rfl
  all_goals rfl

/-- A padding character with no escape open is an ordinary one in a well-formed instance (R93). -/
theorem encStep_pad {cfg : Config} (hw : cfg.wf = true) {e : Enc} (hm : e.mode = .opened) (hs : e.escSt = .none) :
    encStep cfg cfg.padChar e = encOrdinary cfg cfg.padChar e := by
  obtain ⟨_, h1, h2, _⟩ := wf_chars hw
  simp [encStep, hm, hs, Ne.symm h1, Ne.symm h2]

end Sys2Proof.Machine
end

