-- ==== Sys2Proof/Laws/PerInstr.lean ====
section
/-! SUPPORT. Families of statements made instruction by instruction. -/

namespace Sys2Proof.Laws

/-- The word of a well-formed command lies in its row of the opcode map (R52). -/
def EncodedInItsRow.Statement (i : Instr) : Prop :=
  i.wf = true → ∀ r ∈ opcodeMap, r.mnemonic = i.mnemonic → r.holds (encode i) = true

/-- A word of three fields, seen through a mask of three fields. -/
theorem mkWord_and (op a b m n k : Byte) : mkWord op a b &&& mkWord m n k = mkWord (op &&& m) (a &&& n) (b &&& k) := by
  apply BitVec.eq_of_getLsbD_eq
  intro i hi
  simp only [mkWord, BitVec.getLsbD_and, BitVec.getLsbD_append]
  split
  · rfl
  · split <;> rfl

/-- The row test for a word of three fields. -/
theorem holds_mkWord (name : String) (op a b m n k p q t : Byte)
    (h : op &&& m = p ∧ a &&& n = q ∧ b &&& k = t) :
    (OpRow.mk name (mkWord m n k) (mkWord p q t)).holds (mkWord op a b) = true := by
  obtain ⟨rfl, rfl, rfl⟩ := h
  simp [OpRow.holds, mkWord_and]

theorem EncodedInItsRow.nop : EncodedInItsRow.Statement .nop := by
  unfold EncodedInItsRow.Statement; decide

theorem EncodedInItsRow.tx (seg dig : Byte) : EncodedInItsRow.Statement (.tx seg dig) := by
  intro _ r hr hm
  simp only [opcodeMap, List.mem_cons, List.not_mem_nil, or_false] at hr
  rcases hr with rfl | rfl | rfl | rfl | rfl | rfl | rfl | rfl | rfl <;> simp [Instr.mnemonic] at hm
  exact holds_mkWord "TX" 0x01 seg dig 0xFF 0 0 0x01 0 0 (by simp)

theorem EncodedInItsRow.clr (dig : Byte) : EncodedInItsRow.Statement (.clr dig) := by
  intro _ r hr hm
  simp only [opcodeMap, List.mem_cons, List.not_mem_nil, or_false] at hr
  rcases hr with rfl | rfl | rfl | rfl | rfl | rfl | rfl | rfl | rfl <;> simp [Instr.mnemonic] at hm
  exact holds_mkWord "CLR" 0x02 0 dig 0xFF 0xFF 0 0x02 0 0 (by simp)

theorem EncodedInItsRow.encBegin (b : Byte) : EncodedInItsRow.Statement (.encBegin b) := by
  unfold EncodedInItsRow.Statement
  revert b
  decide

theorem EncodedInItsRow.encChar (ch : Byte) : EncodedInItsRow.Statement (.encChar ch) := by
  intro _ r hr hm
  simp only [opcodeMap, List.mem_cons, List.not_mem_nil, or_false] at hr
  rcases hr with rfl | rfl | rfl | rfl | rfl | rfl | rfl | rfl | rfl <;> simp [Instr.mnemonic] at hm
  exact holds_mkWord "ENC_CHAR" 0x11 0 ch 0xFF 0xFF 0 0x11 0 0 (by simp)

theorem EncodedInItsRow.encEnd : EncodedInItsRow.Statement .encEnd := by
  unfold EncodedInItsRow.Statement; decide

theorem EncodedInItsRow.encBeginA : EncodedInItsRow.Statement .encBeginA := by
  unfold EncodedInItsRow.Statement; decide

theorem EncodedInItsRow.rdMsg (idx : Byte) : EncodedInItsRow.Statement (.rdMsg idx) := by
  intro _ r hr hm
  simp only [opcodeMap, List.mem_cons, List.not_mem_nil, or_false] at hr
  rcases hr with rfl | rfl | rfl | rfl | rfl | rfl | rfl | rfl | rfl <;> simp [Instr.mnemonic] at hm
  exact holds_mkWord "RD_MSG" 0x20 0 idx 0xFF 0xFF 0 0x20 0 0 (by simp)

theorem EncodedInItsRow.errclr : EncodedInItsRow.Statement .errclr := by
  unfold EncodedInItsRow.Statement; decide

end Sys2Proof.Laws
end

