-- ==== Sys2Proof/Laws/State.lean ====
section
/-! SUPPORT. One lemma per field per update: what each named update of the state leaves alone, and what it sets. -/

namespace Sys2Proof.Machine

/-! ### The end of a tick -/

@[simp] theorem endTick_cfg (s : State) : (endTick s).cfg = s.cfg := rfl
@[simp] theorem endTick_lines (s : State) : (endTick s).lines = s.lines := rfl
@[simp] theorem endTick_tx (s : State) : (endTick s).tx = s.tx := rfl
@[simp] theorem endTick_enc (s : State) : (endTick s).enc = s.enc := rfl
@[simp] theorem endTick_cmdErr (s : State) : (endTick s).cmdErr = s.cmdErr := rfl
@[simp] theorem endTick_resp (s : State) : (endTick s).resp = s.resp := rfl
@[simp] theorem endTick_stallLeft (s : State) : (endTick s).stallLeft = s.stallLeft := rfl
@[simp] theorem endTick_rx (s : State) : (endTick s).rx = s.rx := rfl
@[simp] theorem endTick_inputs (s : State) : (endTick s).inputs = s.inputs.tail := rfl
@[simp] theorem endTick_draws (s : State) : (endTick s).draws = s.draws + 1 := rfl

/-! ### Stalls -/

@[simp] theorem stallTick_cfg (s : State) : (stallTick s).cfg = s.cfg := rfl
@[simp] theorem stallTick_lines (s : State) : (stallTick s).lines = s.lines := rfl
@[simp] theorem stallTick_tx (s : State) : (stallTick s).tx = s.tx := rfl
@[simp] theorem stallTick_enc (s : State) : (stallTick s).enc = s.enc := rfl
@[simp] theorem stallTick_cmdErr (s : State) : (stallTick s).cmdErr = s.cmdErr := rfl
@[simp] theorem stallTick_resp (s : State) : (stallTick s).resp = s.resp := rfl
@[simp] theorem stallTick_stallLeft (s : State) : (stallTick s).stallLeft = s.stallLeft - 1 := rfl
@[simp] theorem stallTick_rx (s : State) : (stallTick s).rx = s.rx := rfl
@[simp] theorem stallTick_inputs (s : State) : (stallTick s).inputs = s.inputs := rfl
@[simp] theorem stallTick_draws (s : State) : (stallTick s).draws = s.draws := rfl
@[simp] theorem drawStall_cfg (s : State) : (drawStall s).cfg = s.cfg := rfl
@[simp] theorem drawStall_lines (s : State) : (drawStall s).lines = s.lines := rfl
@[simp] theorem drawStall_tx (s : State) : (drawStall s).tx = s.tx := rfl
@[simp] theorem drawStall_enc (s : State) : (drawStall s).enc = s.enc := rfl
@[simp] theorem drawStall_cmdErr (s : State) : (drawStall s).cmdErr = s.cmdErr := rfl
@[simp] theorem drawStall_resp (s : State) : (drawStall s).resp = s.resp := rfl
@[simp] theorem drawStall_stallLeft (s : State) : (drawStall s).stallLeft = Config.stallTicks s.draws := rfl
@[simp] theorem drawStall_rx (s : State) : (drawStall s).rx = s.rx := rfl
@[simp] theorem drawStall_inputs (s : State) : (drawStall s).inputs = s.inputs := rfl
@[simp] theorem drawStall_draws (s : State) : (drawStall s).draws = s.draws := rfl

/-! ### Reset -/

@[simp] theorem resetStep_cfg (s : State) : (resetStep s).cfg = s.cfg := rfl
@[simp] theorem resetStep_lines (s : State) : (resetStep s).lines = Lines.reset := rfl
@[simp] theorem resetStep_tx (s : State) : (resetStep s).tx = Tx.reset := rfl
@[simp] theorem resetStep_enc (s : State) : (resetStep s).enc = Enc.reset := rfl
@[simp] theorem resetStep_cmdErr (s : State) : (resetStep s).cmdErr = 0 := rfl
@[simp] theorem resetStep_resp (s : State) : (resetStep s).resp = 0 := rfl
@[simp] theorem resetStep_stallLeft (s : State) : (resetStep s).stallLeft = 0 := rfl
@[simp] theorem resetStep_rx (s : State) : (resetStep s).rx = s.rx.onReset s.lines s.draws := rfl
@[simp] theorem resetStep_inputs (s : State) : (resetStep s).inputs = s.inputs := rfl
@[simp] theorem resetStep_draws (s : State) : (resetStep s).draws = s.draws := rfl

/-! ### Line writes -/

@[simp] theorem lineWrite_cfg (l : LineWrite) (s : State) : (lineWrite l s).cfg = s.cfg := by cases l <;> rfl
@[simp] theorem lineWrite_tx (l : LineWrite) (s : State) : (lineWrite l s).tx = s.tx := by cases l <;> rfl
@[simp] theorem lineWrite_enc (l : LineWrite) (s : State) : (lineWrite l s).enc = s.enc := by cases l <;> rfl
@[simp] theorem lineWrite_cmdErr (l : LineWrite) (s : State) : (lineWrite l s).cmdErr = s.cmdErr := by cases l <;> rfl
@[simp] theorem lineWrite_resp (l : LineWrite) (s : State) : (lineWrite l s).resp = s.resp := by cases l <;> rfl
@[simp] theorem lineWrite_stallLeft (l : LineWrite) (s : State) : (lineWrite l s).stallLeft = s.stallLeft := by
  cases l <;> rfl
@[simp] theorem lineWrite_inputs (l : LineWrite) (s : State) : (lineWrite l s).inputs = s.inputs := by cases l <;> rfl
@[simp] theorem lineWrite_draws (l : LineWrite) (s : State) : (lineWrite l s).draws = s.draws := by cases l <;> rfl
@[simp] theorem lineWrite_data_lines (b : Bool) (s : State) :
    (lineWrite (.data b) s).lines = { s.lines with data := b } := rfl
@[simp] theorem lineWrite_sclk_lines (b : Bool) (s : State) :
    (lineWrite (.sclk b) s).lines = { s.lines with sclk := b } := rfl
@[simp] theorem lineWrite_rclk_lines (b : Bool) (s : State) :
    (lineWrite (.rclk b) s).lines = { s.lines with rclk := b } := rfl
@[simp] theorem lineWrite_data_rx (b : Bool) (s : State) : (lineWrite (.data b) s).rx = s.rx := rfl
@[simp] theorem lineWrite_sclk_rx (b : Bool) (s : State) : (lineWrite (.sclk b) s).rx = s.rx.onSclk s.lines b := rfl
@[simp] theorem lineWrite_rclk_rx (b : Bool) (s : State) : (lineWrite (.rclk b) s).rx = s.rx.onRclk s.lines b := rfl

/-! ### The sequencer -/

@[simp] theorem startTx_tx (f : Frame) (s : State) : (startTx f s).tx = ⟨.busy, f, 0⟩ := rfl
@[simp] theorem txEvent_cfg (s : State) : (txEvent s).cfg = s.cfg := by unfold txEvent; split <;> simp
@[simp] theorem txEvent_tx (s : State) : (txEvent s).tx = s.tx := by unfold txEvent; split <;> simp
@[simp] theorem txEvent_enc (s : State) : (txEvent s).enc = s.enc := by unfold txEvent; split <;> simp
@[simp] theorem txEvent_cmdErr (s : State) : (txEvent s).cmdErr = s.cmdErr := by unfold txEvent; split <;> simp
@[simp] theorem txEvent_resp (s : State) : (txEvent s).resp = s.resp := by unfold txEvent; split <;> simp
@[simp] theorem txEvent_stallLeft (s : State) : (txEvent s).stallLeft = s.stallLeft := by unfold txEvent; split <;> simp
@[simp] theorem txEvent_inputs (s : State) : (txEvent s).inputs = s.inputs := by unfold txEvent; split <;> simp
@[simp] theorem txEvent_draws (s : State) : (txEvent s).draws = s.draws := by unfold txEvent; split <;> simp
@[simp] theorem txTick_cfg (s : State) : (txTick s).cfg = s.cfg := by simp [txTick]
@[simp] theorem txTick_tx (s : State) : (txTick s).tx = txCount s.cfg.tPhase s.tx := by simp [txTick]
@[simp] theorem txTick_lines (s : State) : (txTick s).lines = (txEvent s).lines := rfl
@[simp] theorem txTick_rx (s : State) : (txTick s).rx = (txEvent s).rx := rfl
@[simp] theorem txTick_enc (s : State) : (txTick s).enc = s.enc := by simp [txTick]
@[simp] theorem txTick_cmdErr (s : State) : (txTick s).cmdErr = s.cmdErr := by simp [txTick]
@[simp] theorem txTick_resp (s : State) : (txTick s).resp = s.resp := by simp [txTick]
@[simp] theorem txTick_stallLeft (s : State) : (txTick s).stallLeft = s.stallLeft := by simp [txTick]
@[simp] theorem txTick_inputs (s : State) : (txTick s).inputs = s.inputs := by simp [txTick]
@[simp] theorem txTick_draws (s : State) : (txTick s).draws = s.draws := by simp [txTick]
@[simp] theorem txCount_frame (n : Nat) (t : Tx) : (txCount n t).frame = t.frame := by unfold txCount; split <;> rfl

/-! ### The port -/

@[simp] theorem offer_port (w : Word) (s : State) : (offer w s).port = ⟨false, true, w⟩ := rfl
@[simp] theorem makeReady_cfg (s : State) : (makeReady s).cfg = s.cfg := rfl
@[simp] theorem makeReady_state (s : State) : (makeReady s).tx.state = .idle := rfl
@[simp] theorem makeReady_stallLeft (s : State) : (makeReady s).stallLeft = 0 := rfl

end Sys2Proof.Machine
end

