-- ==== Sys2Proof/Laws/Step.lean ====
section
/-! SUPPORT. What a step can do, said once: reset, a tick of a transaction, an accepted word, or a quiet tick. -/

namespace Sys2Proof.Machine

/-- An accepted word always completes, and touches the sequencer, the encoder, CMD_ERR_CODE and RESP alone. -/
theorem acceptWord_next (w : Word) (s : State) :
    ∃ t, acceptWord w s = .next t ∧
      t = { s with tx := t.tx, enc := t.enc, cmdErr := t.cmdErr, resp := t.resp } := by
  unfold acceptWord
  split
  · rename_i i _
    cases i <;> simp only [exec, execNop, execTx, execClr, execEncBegin, execEncChar, execEncEnd, execEncBeginA, execRdMsg,
      execErrclr, clearCmdError, startTx]
    case encChar => split <;> simp [raiseCmdError_eq]
    case encEnd => split <;> simp [raiseCmdError_eq]
    case rdMsg => split <;> [simp [raiseCmdError_eq]; (split <;> simp)]
    all_goals simp
  · simp [raiseCmdError_eq]

/-- The four ticks of R31, for a step that answers a next state. -/
theorem step_cases {s t : State} (h : step s = .next t) :
    s.cfg.wf = true ∧
    ((s.port.rst = true ∧ t = endTick (resetStep s)) ∨
     (s.port.rst = false ∧ s.cmdErr ≤ 4 ∧
      ((s.tx.state = .busy ∧ t = endTick (stallTick (txTick s))) ∨
       (Accepts s ∧ ∃ u, acceptWord s.port.word s = .next u ∧ t = endTick (drawStall u)) ∨
       (s.tx.state = .idle ∧ ¬Accepts s ∧ t = endTick (stallTick s))))) := by
  unfold step at h
  split at h
  case isFalse => cases h
  rename_i hw
  refine ⟨hw, ?_⟩
  unfold tick at h
  split at h
  · rename_i hr
    exact .inl ⟨hr, by simpa using h.symm⟩
  rename_i hr
  have hr' : s.port.rst = false := by simpa using hr
  split at h
  · cases h
  rename_i hc
  refine .inr ⟨hr', BitVec.not_lt.mp hc, ?_⟩
  unfold runTick at h
  split at h
  · rename_i hb
    exact .inl ⟨hb, by simpa using h.symm⟩
  rename_i hi
  split at h
  · rename_i ha
    obtain ⟨u, hu, -⟩ := acceptWord_next s.port.word s
    rw [hu] at h
    exact .inr (.inl ⟨⟨hr', hi, ha.1, ha.2⟩, u, hu, by simpa [endAccept] using h.symm⟩)
  · rename_i ha
    exact .inr (.inr ⟨hi, fun ha' => ha ⟨ha'.2.2.1, ha'.2.2.2⟩, by simpa using h.symm⟩)

/-- A reset tick (R114). -/
theorem step_of_reset {s : State} (hw : s.cfg.wf = true) (hr : s.port.rst = true) :
    step s = .next (endTick (resetStep s)) := by
  simp [step, tick, hw, hr]

/-- Without reset a sound machine runs the rest of R31. -/
theorem step_eq_runTick {s : State} (hs : Sound s) (hr : s.port.rst = false) : step s = runTick s := by
  have hc : ¬ 4 < s.cmdErr := BitVec.not_lt.mpr hs.2
  unfold step tick
  rw [if_pos hs.1, hr, if_neg (by decide), if_neg hc]

/-- A tick of a transaction (R31(b)). -/
theorem step_of_ticks {s : State} (hs : Sound s) (ht : Ticks s) :
    step s = .next (endTick (stallTick (txTick s))) := by
  rw [step_eq_runTick hs ht.1]
  simp [runTick, ht.2]

/-- A tick that accepts a word (R31(c)). -/
theorem step_of_accepts {s : State} (hs : Sound s) (ha : Accepts s) :
    step s = endAccept (acceptWord s.port.word s) := by
  rw [step_eq_runTick hs ha.1]
  simp [runTick, ha.2.1, ha.2.2.1, ha.2.2.2]

/-- A quiet tick (R31(d)). -/
theorem step_of_quiet {s : State} (hs : Sound s) (hr : s.port.rst = false) (hi : s.tx.state = .idle) (ha : ¬Accepts s) :
    step s = .next (endTick (stallTick s)) := by
  have : ¬(s.stallLeft = 0 ∧ s.port.valid = true) := fun h => ha ⟨hr, hi, h.1, h.2⟩
  rw [step_eq_runTick hs hr]
  simp [runTick, hi, this]

@[simp] theorem andThen_next (t : State) (f : State → Host.Outcome State Fault Refusal) : andThen (.next t) f = f t := rfl

@[simp] theorem listNext_next {α : Type} (t : State) (f : State → List α) : listNext (.next t) f = f t := rfl

@[simp] theorem run_zero (s : State) : run 0 s = .next s := rfl

/-- `n + 1` ticks, the first one first. -/
theorem run_succ {s t : State} (h : step s = .next t) (n : Nat) : run (n + 1) s = run n t := by
  rw [run, h, andThen_next]

/-- A run of `n + 1` ticks that answers a next state begins with a step that does. -/
theorem run_succ_next {s t : State} {n : Nat} (h : run (n + 1) s = .next t) :
    ∃ u, step s = .next u ∧ run n u = .next t := by
  rw [run] at h
  revert h
  cases hu : step s <;> intro h
  · exact ⟨_, rfl, h⟩
  · cases h
  · cases h

/-- A run cut in two. -/
theorem run_add {s t : State} {m : Nat} (h : run m s = .next t) (n : Nat) : run (m + n) s = run n t := by
  induction m generalizing s with
  | zero => cases h; rw [Nat.zero_add]
  | succ m ih =>
    obtain ⟨u, hu, h'⟩ := run_succ_next h
    rw [Nat.succ_add, run_succ hu, ih h']

/-- Words one after the other, the first one first. -/
theorem acceptWords_cons {w : Word} {s t : State} (h : acceptWord w s = .next t) (ws : List Word) :
    acceptWords (w :: ws) s = acceptWords ws t := by
  rw [acceptWords, h, andThen_next]

theorem acceptWords_append {ws : List Word} {s t : State} (h : acceptWords ws s = .next t) (ws' : List Word) :
    acceptWords (ws ++ ws') s = acceptWords ws' t := by
  induction ws generalizing s with
  | nil => cases h; rfl
  | cons w ws ih =>
    obtain ⟨u, hu, -⟩ := acceptWord_next w s
    rw [acceptWords_cons hu] at h
    rw [List.cons_append, acceptWords_cons hu, ih h]

end Sys2Proof.Machine
end

