-- ==== Sys2Proof/Laws/Transmitter.lean ====
section
/-! SUPPORT. How a transaction advances: the events done and the bits shifted, tick by tick. -/

namespace Sys2Proof.Machine

/-- The ceiling division that counts events, at a tick that has one. -/
theorem events_at {c T : Nat} (hT : 1 ≤ T) (h : c % T = 0) :
    (c + T - 1) / T = c / T ∧ (c + 1 + T - 1) / T = c / T + 1 := by
  obtain ⟨q, rfl⟩ := Nat.dvd_of_mod_eq_zero h
  rw [Nat.mul_div_cancel_left q hT, show T * q + T - 1 = (T - 1) + T * q by omega,
    show T * q + 1 + T - 1 = T + T * q by omega, Nat.add_mul_div_left _ _ hT, Nat.add_mul_div_left _ _ hT,
    Nat.div_eq_of_lt (by omega), Nat.div_self hT]
  omega

/-- The ceiling division that counts events, at a tick that has none. -/
theorem events_between {c T : Nat} (hT : 1 ≤ T) (h : c % T ≠ 0) :
    (c + 1 + T - 1) / T = (c + T - 1) / T := by
  obtain ⟨q, r, hr, rfl⟩ : ∃ q r, r < T ∧ c = T * q + r :=
    ⟨c / T, c % T, Nat.mod_lt c hT, (Nat.div_add_mod c T).symm⟩
  rw [Nat.mul_add_mod, Nat.mod_eq_of_lt hr] at h
  rw [show T * q + r + 1 + T - 1 = r + T + T * q by omega, show T * q + r + T - 1 = r - 1 + T + T * q by omega,
    Nat.add_mul_div_left _ _ hT, Nat.add_mul_div_left _ _ hT, Nat.add_div_right _ hT, Nat.add_div_right _ hT,
    Nat.div_eq_of_lt hr, Nat.div_eq_of_lt (by omega)]

/-- No event has been done when a transaction begins. -/
theorem events_start {T : Nat} (hT : 1 ≤ T) : (0 + T - 1) / T = 0 := Nat.div_eq_of_lt (by omega)

/-- A transaction has at most 50 events. -/
theorem events_le {c T : Nat} (hT : 1 ≤ T) (h : c < 50 * T) : (c + T - 1) / T ≤ 50 := by
  have : c + T - 1 < (50 + 1) * T := by omega
  exact Nat.lt_succ_iff.mp ((Nat.div_lt_iff_lt_mul hT).mpr this)

/-- The event index of a tick is below 50. -/
theorem event_lt {c T : Nat} (h : c < 50 * T) : c / T < 50 := Nat.div_lt_of_lt_mul (by omega)

/-- The frame bit of event `3 * i` and the bits shifted so far, one more (R65, R73). -/
theorem shift_in (f s j : Nat) (hj : j < 16) (h : s % 2 ^ j = f / 2 ^ (16 - j)) (hf : f < 2 ^ 16) :
    (2 * s + (f / 2 ^ (15 - j)) % 2) % 2 ^ (j + 1) = f / 2 ^ (16 - (j + 1)) := by
  have e1 : 16 - j = (15 - j) + 1 := by omega
  have e2 : 16 - (j + 1) = 15 - j := by omega
  rw [e1, Nat.pow_succ, ← Nat.div_div_eq_div_mul] at h
  rw [e2]
  have hlt : f / 2 ^ (15 - j) < 2 ^ (j + 1) := by
    rw [Nat.div_lt_iff_lt_mul (by positivity), ← Nat.pow_add, show j + 1 + (15 - j) = 16 by omega]
    exact hf
  generalize f / 2 ^ (15 - j) = q at *
  have hs := Nat.div_add_mod s (2 ^ j)
  rw [h] at hs
  have : 2 * s + q % 2 = q + 2 ^ (j + 1) * (s / 2 ^ j) := by
    rw [Nat.pow_succ]; have := Nat.div_add_mod q 2; nlinarith
  rw [this, Nat.add_mul_mod_self_left, Nat.mod_eq_of_lt hlt]

/-- The receiver's shift as arithmetic (R73). -/
theorem shifted_toNat (r : Frame) (b : Bool) :
    (r.extractLsb' 0 15 ++ BitVec.ofBool b : Frame).toNat = (2 * r.toNat + b.toNat) % 2 ^ 16 := by
  rw [BitVec.toNat_append, BitVec.extractLsb'_toNat]
  have h1 : BitVec.toNat (BitVec.ofBool b) = b.toNat := by cases b <;> rfl
  rw [h1, Nat.shiftRight_zero, Nat.shiftLeft_eq]
  have hb : b.toNat < 2 ^ 1 := by cases b <;> decide
  rw [← Nat.shiftLeft_eq, ← Nat.shiftLeft_add_eq_or_of_lt hb, Nat.shiftLeft_eq]
  cases b <;> simp only [Bool.toNat_true, Bool.toNat_false] <;> omega

/-- A bit of a frame as arithmetic. -/
theorem frame_bit (f : Frame) (i : Nat) : (f.getLsbD i).toNat = f.toNat / 2 ^ i % 2 := by
  rw [BitVec.getLsbD, Nat.testBit_eq_decide_div_mod_eq]
  rcases Nat.mod_two_eq_zero_or_one (f.toNat / 2 ^ i) with h | h <;> simp [h]

end Sys2Proof.Machine
end

