-- ==== Sys2Proof/Tests/Slice0.lean ====
section
/-! SUPPORT. Tests on single operations and steps, with expected values from 95_test_vectors.md, and a witness for the hypotheses of
every statement. -/

namespace Sys2Proof.Tests

open Sys2Proof.Machine

/-! ### The configurations of 95_test_vectors.md and small states -/

abbrev cfgA : Config := Config.cfgA
abbrev cfgB : Config := { cfgA with fallbackChar := some 0x5F }
abbrev cfgC : Config := { cfgA with fallbackChar := some 0x2D, pointAfterFallback := .lookup }
abbrev cfgD : Config := { cfgA with litLevel := false, msgMax := 4, tPhase := 2 }
/-- CFG-A with no glyph for the padding character. -/
abbrev cfgNoBlank : Config := { cfgA with font := [(0x41, 0x77)] }
/-- CFG-A with no glyph for the marker. -/
abbrev cfgNoMark : Config := { cfgA with font := [(0x20, 0x00), (0x41, 0x77)] }

/-- After reset, with these words offered one a tick. -/
def start (c : Config) (words : List Word) : State :=
  State.resetFor c ⟨0x5A5A, 0xA5A5⟩ (words.map fun w => ⟨false, true, w⟩) 0

/-- After reset, with an encoder. -/
def withEnc (c : Config) (e : Enc) : State := { start c [] with enc := e }

/-- An open session that has taken `m`. -/
def openWith (m : List Byte) : Enc :=
  { Enc.reset with mode := .opened, msgLen := m.length, msgBuf := m.zipIdx.map fun (b, i) => (i, b) }

/-- In a transaction of frame `f`, at count `n`, with these lines and this SR. -/
def sending (c : Config) (f : Frame) (n : Nat) (l : Lines) (sr : Frame) : State :=
  { start c [] with tx := ⟨.busy, f, n⟩, lines := l, rx := ⟨sr, 0xA5A5⟩ }

/-- With a reset on the port. -/
def resetting (s : State) : State := { s with inputs := [⟨true, false, 0⟩] }

/-- The outcome is a next state with `p`. -/
def nextIs (o : Host.Outcome State Fault Refusal) (p : State → Bool) : Bool :=
  match o with
  | .next t => p t
  | .fault _ => false
  | .refused _ => false

theorem exists_next {o : Host.Outcome State Fault Refusal} {p : State → Bool} (h : nextIs o p = true) :
    ∃ t, o = .next t ∧ p t = true := by
  cases o with
  | next t => exact ⟨t, rfl, h⟩
  | fault r => cases h
  | refused r => cases h

/-- The codes of a text. -/
def codes (s : String) : List Byte := s.toList.map fun c => BitVec.ofNat 8 c.toNat

/-! ### Well-formedness: each check refuses an ill-formed term -/

theorem test_wf_encBegin_bit7 : (Instr.encBegin 0x80).wf = false ∧ (Instr.encBegin 0x7F).wf = true := by decide
theorem test_wf_configs : cfgA.wf = true ∧ cfgB.wf = true ∧ cfgC.wf = true ∧ cfgD.wf = true := by decide
theorem test_wf_a : Config.wf { cfgA with escChar := 0x2E } = false := by decide
theorem test_wf_b : Config.wf { cfgA with padChar := 0x23 } = false ∧ Config.wf { cfgA with padChar := 0x2E } = false := by decide
theorem test_wf_c : Config.wf { cfgA with escChar := 0x66 } = false := by decide
theorem test_wf_d : Config.wf { cfgA with digitMasks := [8, 4, 2] } = false := by decide
theorem test_wf_e : Config.wf { cfgA with nDigits := 0, digitMasks := [] } = false ∧
    Config.wf { cfgA with nDigits := 9, digitMasks := List.replicate 9 1 } = false := by decide
theorem test_wf_f : Config.wf { cfgA with msgMax := 0 } = false ∧ Config.wf { cfgA with msgMax := 256 } = false := by decide
theorem test_wf_g : Config.wf { cfgA with tPhase := 0 } = false := by decide

/-! ### Decoding: one word of each row of R52, written bit by bit -/

theorem test_decode_nop : decode 0b00000000_00000000_00000000 = .ok .nop := by decide
theorem test_decode_tx : decode 0b00000001_00111111_00001000 = .ok (.tx 0x3F 0x08) := by decide
theorem test_decode_clr : decode 0b00000010_00000000_11111111 = .ok (.clr 0xFF) := by decide
theorem test_decode_encBegin : decode 0b00010000_00000000_01111111 = .ok (.encBegin 127) := by decide
theorem test_decode_encChar : decode 0b00010001_00000000_01000001 = .ok (.encChar 0x41) := by decide
theorem test_decode_encEnd : decode 0b00010010_00000000_00000000 = .ok .encEnd := by decide
theorem test_decode_encBeginA : decode 0b00010011_00000000_00000000 = .ok .encBeginA := by decide
theorem test_decode_rdMsg : decode 0b00100000_00000000_11111110 = .ok (.rdMsg 254) := by decide
theorem test_decode_errclr : decode 0b00110000_00000000_00000000 = .ok .errclr := by decide
/-- K7, K9, K12. -/
theorem test_decode_errors : decode 0x0F1234 = .error .illegalOp ∧ decode 0x100080 = .error .reservedNz ∧
    decode 0x110141 = .error .reservedNz := by decide

/-! ### One step each -/

/-- K1. -/
theorem test_nop : nextIs (exec .nop (start cfgA [])) (fun t => t == start cfgA []) = true := by decide
/-- K2, K3. -/
theorem test_nop_fields : nextIs (acceptWord 0x000001 (start cfgA [])) (fun t => t.status == 0x0040) = true ∧
    nextIs (acceptWord 0x000100 (start cfgA [])) (fun t => t.status == 0x0040) = true := by decide
/-- T7. -/
theorem test_tx : nextIs (exec (.tx 0x80 0x01) (start cfgA [])) (fun t => t.tx == ⟨.busy, 0x8001, 0⟩ && t.status == 0x0001) = true := by
  decide
/-- T2: LIT_LEVEL = 0 inverts the segment byte alone. -/
theorem test_tx_inverted : nextIs (exec (.tx 0x3F 0x08) (start cfgD [])) (fun t => t.tx.frame == 0xC008) = true := by decide
/-- T11. -/
theorem test_clr : nextIs (exec (.clr 0xFF) (start cfgA [])) (fun t => t.tx.frame == 0x00FF) = true := by decide
/-- T15. -/
theorem test_clr_inverted : nextIs (exec (.clr 0x0F) (start cfgD [])) (fun t => t.tx.frame == 0xFF0F) = true := by decide
/-- K8. -/
theorem test_encBegin : nextIs (exec (.encBegin 127) (start cfgA [])) (fun t => t.status == 0x7F02 && msgRead t.enc 126 == 0) = true := by
  decide +kernel
/-- E51: the padding overflows. -/
theorem test_encBegin_overflow : nextIs (exec (.encBegin 5) (start cfgD [])) (fun t => t.status == 0x041E) = true := by decide
/-- K15. -/
theorem test_encBeginA : nextIs (exec .encBeginA (start cfgA [])) (fun t => t.status == 0x0402) = true := by decide
/-- E2: the point merges. -/
theorem test_encChar_point : nextIs (exec (.encChar 0x2E) (withEnc cfgA (openWith [0x77])))
    (fun t => t.enc.msgLen == 1 && msgRead t.enc 0 == 0xF7) = true := by decide
/-- E49: the lookup fails before the capacity does. -/
theorem test_encChar_lookup_first :
    nextIs (exec (.encChar 0x5A) (withEnc cfgD (openWith [0x3F, 0x06, 0x5B, 0x4F]))) (fun t => t.status == 0x040E) = true := by decide
/-- K11, K13. -/
theorem test_encEnd_idle : nextIs (exec (.encChar 0x41) (start cfgA [])) (fun t => t.status == 0x0060) = true ∧
    nextIs (exec .encEnd (start cfgA [])) (fun t => t.status == 0x0060) = true := by decide
/-- E30: an escape left open meets the closing blank. -/
theorem test_encEnd_escape :
    nextIs (exec .encEnd (withEnc cfgA { openWith [0x00, 0x77] with escSt := .mark, padSuf := 1 })) (fun t => t.status == 0x0216) = true := by
  decide
/-- X2: the byte of `A.`. -/
theorem test_rdMsg : nextIs (exec (.rdMsg 0) (withEnc cfgA { openWith [0xF7] with mode := .done })) (fun t => t.resp == 0xF7) = true := by
  decide
/-- K32, K33. -/
theorem test_rdMsg_range : nextIs (exec (.rdMsg 3) (start cfgD [])) (fun t => t.resp == 0 && t.status == 0) = true ∧
    nextIs (exec (.rdMsg 4) (start cfgD [])) (fun t => t.status == 0x0080) = true := by decide
/-- K22. -/
theorem test_errclr : nextIs (exec .errclr { start cfgA [] with cmdErr := 3 }) (fun t => t.status == 0x0000) = true := by decide
/-- K24: the first error stays. -/
theorem test_errclr_field : nextIs (acceptWord 0x300001 { start cfgA [] with cmdErr := 1 }) (fun t => t.status == 0x0020) = true := by
  decide

/-- The fetch: the word offered is the command the next step runs (K15). -/
theorem test_fetch : nextIs (step (State.reset.withFetchWord 24 0x130000)) (fun t => t.enc.msgLen == 4) = true := by decide
/-- The event table of section 2.3: event 8 shifts a 1 in. -/
theorem test_event_8 : nextIs (step { sending cfgA 0x3F08 8 ⟨true, false, true⟩ 0 with rx := ⟨0, 0⟩ })
    (fun t => t.rx == ⟨0x0001, 0x0000⟩ && t.lines == ⟨true, true, true⟩) = true := by decide
/-- P4, tick 105: a reset while RCLK is low latches the whole frame. -/
theorem test_reset_latches : nextIs (step (resetting (sending cfgA 0x6E08 49 ⟨false, true, false⟩ 0x6E08)))
    (fun t => t.rx == ⟨0x6E08, 0x6E08⟩ && t.lines == ⟨false, true, true⟩) = true := by decide
/-- E13, E41, E38. -/
theorem test_encode : encodeFrom cfgA (codes "#3F##A.") 0 Enc.reset = .ok [0x3F, 0x49, 0xF7] ∧
    encodeFrom cfgC (codes "Z..") 0 Enc.reset = .ok [0x40, 0x40, 0x40] ∧
    encodeFrom cfgB (codes "#Z") 0 Enc.reset = .error .escape := by decide
/-- The assembly of X4 and T1, and an operand out of range. -/
theorem test_assembly : assembleText "ENCODE \"#3F\", 0".toList = some [0x100000, 0x110023, 0x110033, 0x110046, 0x120000] ∧
    assembleText "TX 0x3F, 0x08".toList = some [0x013F08] ∧ assembleText "ENC_BEGIN 128".toList = none := by decide

/-! ### Witnesses: concrete states and operands that meet the hypotheses of a statement, clause by clause -/

theorem witness_DecodeFollowsTheDecodeTable :
    ((0x7F : Byte).toNat < 0x80 ∧ (0x00 : Byte).toNat < 0x80) ∧
    (∀ op ∈ ([0x03, 0xFF] : List Byte), op ∉ ([0x00, 0x01, 0x02, 0x10, 0x11, 0x12, 0x13, 0x20, 0x30] : List Byte)) ∧
    decode 0x030000 = .error .illegalOp ∧ decode 0x300001 = .error .reservedNz := by decide

theorem witness_IllegalOpcodesOnlyRecordIllegalOp :
    ∀ op ∈ ([0x03, 0x0F, 0x14, 0x1F, 0x21, 0x2F, 0x31, 0xFF] : List Byte),
      op ∉ ([0x00, 0x01, 0x02, 0x10, 0x11, 0x12, 0x13, 0x20, 0x30] : List Byte) := by decide

theorem witness_ReservedFieldsOnlyRecordReservedNz :
    ((0x02 : Byte) ∈ ([0x00, 0x02, 0x10, 0x11, 0x12, 0x13, 0x20, 0x30] : List Byte) ∧ (0x01 : Byte) ≠ 0) ∧
    ((0x30 : Byte) ∈ ([0x00, 0x12, 0x13, 0x30] : List Byte) ∧ (0xFF : Byte) ≠ 0) ∧
    ((0x10 : Byte) = 0x10 ∧ (0x80 : Byte).getLsbD 7 = true) := by decide

theorem witness_DecodeIsTotalAndUnambiguous :
    (Instr.encBegin 0x7F).wf = true ∧ Instr.encEnd.wf = true ∧ encode (.encBegin 0x7F) = encode (.encBegin 0x7F) ∧
    ∃ r ∈ opcodeMap, r.holds 0x10007F = true := by decide

theorem witness_DecodeInvertsEncode :
    (Instr.encBegin 0x00).wf = true ∧ (Instr.encBegin 0x7F).wf = true ∧ (Instr.tx 0xFF 0xFF).wf = true ∧
    decode 0x01FFFF = .ok (.tx 0xFF 0xFF) ∧ decode 0x10007F = .ok (.encBegin 0x7F) ∧ decode 0x000000 = .ok .nop := by decide

theorem witness_AssembledEncodeComputesEncode :
    assembleWords (.encode [0x41, 255] 127) = some [0x10007F, 0x110041, 0x1100FF, 0x120000] ∧
    assembleWords (.encode [] 0) = some [0x100000, 0x120000] ∧
    assembleWords (.encodeAuto [0]) = some [0x130000, 0x110000, 0x120000] ∧
    assembleWords (.encode [] 128) = none ∧ assembleWords (.encodeAuto [256]) = none := by decide

theorem sound_start {c : Config} (h : c.wf = true) (ws : List Word) : Sound (start c ws) :=
  ⟨h, by show (0 : BitVec 3) ≤ 4; decide⟩

theorem accepts_start (c : Config) (w : Word) : Accepts (start c [w]) := ⟨rfl, rfl, rfl, rfl⟩

theorem witness_StepRunsTheDecodedCommand : ∃ (s : State) (i : Instr), Sound s ∧ Accepts s ∧ decode s.port.word = .ok i :=
  ⟨start cfgA [0x10007F], .encBegin 0x7F, sound_start (by decide) _, accepts_start _ _, by decide⟩

theorem witness_StepRecordsTheErrorOfAWord :
    (∃ s : State, Sound s ∧ Accepts s ∧ decode s.port.word = .error .illegalOp) ∧
    ∃ s : State, Sound s ∧ Accepts s ∧ decode s.port.word = .error .reservedNz :=
  ⟨⟨start cfgA [0xFFFFFF], sound_start (by decide) _, accepts_start _ _, by decide⟩,
   ⟨start cfgA [0x100080], sound_start (by decide) _, accepts_start _ _, by decide⟩⟩

theorem witness_SoundMachineNeverStops : Sound (start cfgA []) ∧ Sound { start cfgD [] with cmdErr := 4 } :=
  ⟨⟨by decide, by decide⟩, ⟨by decide, by decide⟩⟩

theorem witness_UnproducedErrorCodesFault : ∀ c ∈ ([5, 6, 7] : List (BitVec 3)),
    ({ start cfgA [] with cmdErr := c } : State).cfg.wf = true ∧ ({ start cfgA [] with cmdErr := c } : State).port.rst = false ∧
    ({ start cfgA [] with cmdErr := c } : State).cmdErr ∈ ([5, 6, 7] : List (BitVec 3)) := by decide

theorem witness_ConfigurationNeverChanges : ∃ t, step (start cfgD [0x130000]) = .next t ∧ (t.cfg == cfgD) = true :=
  exists_next (by decide)

theorem witness_PortIsNotSeenWhileNotReady :
    ((sending cfgA 0x3F08 7 ⟨true, true, true⟩ 0).port.rst = false ∧ (sending cfgA 0x3F08 7 ⟨true, true, true⟩ 0).cmdReady = false) ∧
    ({ start cfgA [] with stallLeft := 1 } : State).port.rst = false ∧ ({ start cfgA [] with stallLeft := 1 } : State).cmdReady = false := by
  decide

theorem witness_EncoderFollowsTheAcceptedWords :
    ∃ t, run 1 (start cfgA [0x130000]) = .next t ∧ (Nat.beq t.enc.msgLen 4) = true := exists_next (by decide)

theorem witness_QuietBlockKeepsItsState : Sound (start cfgA []) ∧ (start cfgA []).tx.state = .idle ∧
    (∀ p ∈ (start cfgA []).inputs.take 3, p.rst = false ∧ p.valid = false) ∧
    ∀ p ∈ ({ start cfgA [] with inputs := [idlePort, idlePort, ⟨true, true, 0⟩] } : State).inputs.take 2,
      p.rst = false ∧ p.valid = false :=
  ⟨⟨by decide, by decide⟩, by decide, by decide, by decide⟩

theorem witness_EveryStallEnds : ∃ s : State, Sound s ∧ s.tx.state = .idle ∧ NoReset s.stallLeft s ∧ s.stallLeft = 2 ∧ s.port.valid = true :=
  ⟨{ start cfgA [0, 0] with stallLeft := 2 }, ⟨by decide, by decide⟩, rfl, by unfold NoReset; decide, rfl, rfl⟩

/-! The invariants in a state with a message, in the middle of a transaction, with SCLK low and with RCLK low. -/

theorem encInv_reset (c : Config) : EncInv c Enc.reset where
  err := by decide
  len := Nat.zero_le _
  canon := List.Pairwise.nil
  written := by intro i hi; cases hi
  inside := by intro i hi; cases hi
  pad := by decide
  fallback := by intro h; cases h
  fresh := fun _ => rfl
  closed := by intro h; cases h

theorem encInv_message : EncInv cfgA (openWith [0x77]) where
  err := by decide
  len := by decide
  canon := by decide
  written := by decide
  inside := by
    intro i hi
    rcases i with _ | i
    · decide
    · cases hi
  pad := by decide
  fallback := by intro h; cases h
  fresh := by intro h; cases h
  closed := by intro h; cases h

theorem inv_message : Inv (withEnc cfgA (openWith [0x77])) where
  cfg := by decide
  tx := ⟨rfl, rfl⟩
  rx := by intro h; cases h
  enc := encInv_message
  cmd := by decide

theorem inv_start {c : Config} (h : c.wf = true) (ws : List Word) : Inv (start c ws) where
  cfg := h
  tx := ⟨rfl, by show Lines.reset = ⟨(0 : Frame).getLsbD 0, true, true⟩; decide⟩
  rx := by intro h; cases h
  enc := encInv_reset c
  cmd := by show (0 : BitVec 3) ≤ 4; decide

theorem inv_sclk_low : Inv (sending cfgD 0xC008 4 ⟨true, false, true⟩ 0x5A5A) where
  cfg := by decide
  tx := ⟨by decide, by decide, by decide, fun _ => by decide⟩
  rx := fun _ => ⟨by decide, fun h => absurd h (by decide)⟩
  enc := encInv_reset _
  cmd := by decide

theorem inv_rclk_low : Inv (sending cfgD 0xC008 98 ⟨false, true, false⟩ 0xC008) where
  cfg := by decide
  tx := ⟨by decide, by decide, by decide, fun _ => by decide⟩
  rx := fun _ => ⟨by decide, fun h => absurd h (by decide)⟩
  enc := encInv_reset _
  cmd := by decide

theorem witness_StepKeepsTheInvariants :
    (∃ t, step (sending cfgD 0xC008 98 ⟨false, true, false⟩ 0xC008) = .next t ∧ (t.rx.lat == 0xC008) = true) ∧
    Inv (sending cfgD 0xC008 98 ⟨false, true, false⟩ 0xC008) ∧
    (∃ t, step (withEnc cfgA (openWith [0x77])) = .next t ∧ (t.enc == openWith [0x77]) = true) ∧
    Inv (withEnc cfgA (openWith [0x77])) :=
  ⟨exists_next (by decide), inv_rclk_low, exists_next (by decide), inv_message⟩

theorem witness_ResetStateHasTheInvariants : cfgA.wf = true ∧ cfgD.wf = true := by decide

theorem witness_OnlyTheSequencerAndResetWriteTheLines :
    (∃ t, step (start cfgA [0x130000]) = .next t ∧ (t.lines == ⟨false, true, true⟩) = true) ∧
    (start cfgA [0x130000]).port.rst = false ∧ (start cfgA [0x130000]).tx.state = .idle ∧
    Inv (start cfgA [0x130000]) ∧
    (∃ t, step (resetting (start cfgA [])) = .next t ∧ (t.lines == ⟨false, true, true⟩) = true) ∧
    (resetting (start cfgA [])).port.rst = true :=
  ⟨exists_next (by decide), rfl, rfl, inv_start (by decide) _, exists_next (by decide), rfl⟩

theorem witness_ReceiverChangesOnlyOnRisingEdges :
    (∃ t, step (sending cfgA 0x3F08 8 ⟨true, false, true⟩ 0) = .next t ∧ (t.rx.sr != 0) = true) ∧
    ∃ t, step (sending cfgA 0x3F08 49 ⟨false, true, false⟩ 0x3F08) = .next t ∧ (t.rx.lat != 0xA5A5) = true :=
  ⟨exists_next (by decide), exists_next (by decide)⟩

theorem witness_CommandErrorIsSticky :
    (∃ t, step { start cfgA [0x300000] with cmdErr := 1 } = .next t ∧ (t.cmdErr == 0) = true) ∧
    (∃ t, step { start cfgA [0x000001] with cmdErr := 1 } = .next t ∧ (t.cmdErr == 1) = true) ∧
    ∃ t, step (start cfgA [0x2000FF]) = .next t ∧ (t.cmdErr != 0) = true :=
  ⟨exists_next (by decide), exists_next (by decide), exists_next (by decide)⟩

theorem witness_OnlyANewSessionOrResetLeavesDoneOrErr :
    (withEnc cfgA { openWith [0x77] with mode := .done }).enc.mode = .done ∧
    (∃ t, step { start cfgA [0x110041] with enc := { openWith [0x77] with mode := .done } } = .next t ∧
      (t.enc == { openWith [0x77] with mode := .done }) = true) ∧
    ∃ t, step { start cfgA [0x110041] with enc := { openWith [0x77] with mode := .err, err := .lookup } } = .next t ∧
      (t.enc == { openWith [0x77] with mode := .err, err := .lookup }) = true :=
  ⟨rfl, exists_next (by decide), exists_next (by decide)⟩

theorem witness_StatusShowsTheState : ({ Enc.reset with msgLen := 255 } : Enc).msgLen ≤ 255 := by decide

theorem witness_PortsShowStatusAndResponse :
    Ticks (sending cfgA 0x3F08 8 ⟨true, false, true⟩ 0) ∧ (sending cfgA 0x3F08 8 ⟨true, false, true⟩ 0).stallLeft = 0 ∧
    ∃ t, step (sending cfgA 0x3F08 8 ⟨true, false, true⟩ 0) = .next t ∧ (t.resp == 0) = true :=
  ⟨⟨rfl, rfl⟩, rfl, exists_next (by decide)⟩

theorem witness_OnlyRdMsgAndResetWriteResp :
    ∃ t, step { start cfgA [0x200000] with enc := openWith [0x77] } = .next t ∧ (t.resp == 0x77) = true :=
  exists_next (by decide)

theorem witness_ResetTickLoadsTheResetValues :
    (resetting (start cfgA [])).cfg.wf = true ∧ (resetting (start cfgA [])).port.rst = true := by decide

theorem witness_ResetLeavesNoPartialFrame :
    (Inv (resetting (sending cfgD 0xC008 4 ⟨true, false, true⟩ 0x5A5A)) ∧
      (resetting (sending cfgD 0xC008 4 ⟨true, false, true⟩ 0x5A5A)).port.rst = true) ∧
    (Inv (resetting (sending cfgD 0xC008 98 ⟨false, true, false⟩ 0xC008)) ∧
      (resetting (sending cfgD 0xC008 98 ⟨false, true, false⟩ 0xC008)).port.rst = true) ∧
    Inv (resetting (start cfgD [])) ∧ (resetting (start cfgD [])).port.rst = true :=
  ⟨⟨⟨inv_sclk_low.cfg, inv_sclk_low.tx, inv_sclk_low.rx, inv_sclk_low.enc, inv_sclk_low.cmd⟩, rfl⟩,
   ⟨⟨inv_rclk_low.cfg, inv_rclk_low.tx, inv_rclk_low.rx, inv_rclk_low.enc, inv_rclk_low.cmd⟩, rfl⟩,
   have h : Inv (start cfgD []) := inv_start (by decide) []
   ⟨h.cfg, h.tx, h.rx, h.enc, h.cmd⟩, rfl⟩

theorem witness_BootSequenceDarkensTheDisplay : ∃ (s : State) (p : PortInput) (l : List PortInput), s.cfg.wf = true ∧
    p.rst = true ∧ s.inputs = p :: ⟨false, true, 0x0200FF⟩ :: l ∧ ∀ q ∈ l.take (50 * s.cfg.tPhase), q.rst = false :=
  ⟨{ start cfgD [] with inputs := [⟨true, false, 0⟩, ⟨false, true, 0x0200FF⟩, idlePort] }, _, _, by decide, rfl, rfl, by decide⟩

theorem witness_ClrTransmitsTheBlankByte : (0x01 : Byte) ≠ 0 ∧ (0xFF : Byte) ≠ 0 ∧ (start cfgD []).cfg.litLevel = false := by decide

theorem witness_TransmitterIsIsolated :
    (start cfgA []).cfg.litLevel = (withEnc cfgC (openWith [0x77])).cfg.litLevel ∧
    ∃ s s' : State, Sound s ∧ Sound s' ∧ Ticks s ∧ Ticks s' ∧ s.cfg.tPhase = s'.cfg.tPhase ∧ s.tx = s'.tx ∧ s.lines = s'.lines ∧
      s.enc ≠ s'.enc ∧ s.rx ≠ s'.rx :=
  ⟨rfl, sending cfgA 0x3F08 8 ⟨true, false, true⟩ 0, { sending cfgC 0x3F08 8 ⟨true, false, true⟩ 1 with enc := openWith [0x77] },
   ⟨by decide, by decide⟩, ⟨by decide, by decide⟩, ⟨rfl, rfl⟩, ⟨rfl, rfl⟩, rfl, rfl, rfl, by decide, by decide⟩

/-- With T_PHASE = 2: the first and last bit, the latch pulse, the last tick, and a tick with no event. -/
theorem witness_SequencerTickPerformsTheEvents :
    (∀ n, Sound (sending cfgD 0x3F08 n ⟨false, true, true⟩ 0) ∧ Ticks (sending cfgD 0x3F08 n ⟨false, true, true⟩ 0) ∧
      (sending cfgD 0x3F08 n ⟨false, true, true⟩ 0).tx.cnt = n) ∧
    0 = 3 * 0 * cfgD.tPhase ∧ 90 = 3 * 15 * cfgD.tPhase ∧ 2 = (3 * 0 + 1) * cfgD.tPhase ∧ 92 = (3 * 15 + 1) * cfgD.tPhase ∧
    4 = (3 * 0 + 2) * cfgD.tPhase ∧ 94 = (3 * 15 + 2) * cfgD.tPhase ∧ 96 = 48 * cfgD.tPhase ∧ 98 = 49 * cfgD.tPhase ∧
    1 % cfgD.tPhase ≠ 0 ∧ 99 = 50 * cfgD.tPhase - 1 ∧
    (sending cfgD 0x3F08 0 ⟨false, true, true⟩ 0).tx.state = .busy ∧ NoReset 99 (sending cfgD 0x3F08 0 ⟨false, true, true⟩ 0) ∧
    99 < 50 * cfgD.tPhase :=
  ⟨fun _ => ⟨⟨by show cfgD.wf = true; decide, by show (0 : BitVec 3) ≤ 4; decide⟩, ⟨rfl, rfl⟩, rfl⟩, rfl, rfl, rfl, rfl, rfl, rfl, rfl, rfl, by decide, rfl, rfl,
   by unfold NoReset; decide, by decide⟩

theorem witness_ReceiverShiftsAndLatches :
    (sending cfgA 0 1 ⟨true, false, true⟩ 0).lines.sclk = false ∧ (sending cfgA 0 49 ⟨true, true, false⟩ 0).lines.rclk = false ∧
    (start cfgA []).lines.sclk = true ∧ (start cfgA []).lines.rclk = true := by decide

theorem fresh_start : Sound (sending cfgD 0x3F08 0 ⟨true, true, true⟩ 0x5A5A) ∧ Fresh (sending cfgD 0x3F08 0 ⟨true, true, true⟩ 0x5A5A) ∧
    ∀ n, NoReset n (sending cfgD 0x3F08 0 ⟨true, true, true⟩ 0x5A5A) :=
  ⟨⟨by decide, by decide⟩, ⟨rfl, rfl, rfl, rfl⟩, fun n p hp => by cases n <;> cases hp⟩

theorem witness_TransactionDeliversTheFrame : ∃ s : State, Sound s ∧ Fresh s ∧ NoReset (50 * s.cfg.tPhase) s :=
  ⟨_, fresh_start.1, fresh_start.2.1, fresh_start.2.2 _⟩

theorem witness_TxShowsSegmentsOnDigits : ∃ s : State, Inv s ∧ Accepts s ∧ s.port.word = mkWord 0x01 0x3F 0x08 ∧
    NoReset (1 + 50 * s.cfg.tPhase) s :=
  ⟨start cfgD [0x013F08], inv_start (by decide) _, accepts_start _ _, by decide, by unfold NoReset; decide⟩

theorem witness_LatchHoldsUntilTheLastEvent : ∃ s : State, Sound s ∧ Fresh s ∧ NoReset (49 * s.cfg.tPhase) s ∧ NoReset 0 s :=
  ⟨_, fresh_start.1, fresh_start.2.1, fresh_start.2.2 _, fresh_start.2.2 _⟩

theorem witness_TransactionHasItsEdges : ∃ s : State, Sound s ∧ Fresh s ∧ NoReset (50 * s.cfg.tPhase) s :=
  ⟨_, fresh_start.1, fresh_start.2.1, fresh_start.2.2 _⟩

theorem witness_EncBeginOpensAPaddedSession :
    cfgD.wf = true ∧ 4 = cfgD.nDigits ∧ 0 = ((0x00 : Byte) &&& 0x7F).toNat ∧ 127 = ((0x7F : Byte) &&& 0x7F).toNat ∧
    resolve cfgD cfgD.padChar = some (0x00, false) ∧ 4 ≤ cfgD.msgMax ∧ cfgD.msgMax < 5 ∧
    cfgNoBlank.wf = true ∧ resolve cfgNoBlank cfgNoBlank.padChar = none := by decide

/-- Each mode; in an open session a point that merges, a point that does not, an ordinary character and an escape. -/
theorem witness_EncCharActsByModeAndStoresOneByte :
    (0x01 : Byte) ≠ 0 ∧ (withEnc cfgA { openWith [0x77] with mode := .err, err := .lookup }).enc.mode = .err ∧ (start cfgA []).enc.mode = .idle ∧
    (withEnc cfgA { openWith [0x77] with mode := .done }).enc.mode = .done ∧
    (openWith [0x77]).mode = .opened ∧ (openWith [0x77]).escSt = .none ∧
    cfgA.pointChar.code = 0x2E ∧ (openWith [0x77]).lastFb = false ∧
    cfgC.pointAfterFallback = .lookup ∧ compatQ cfgC = false ∧ ({ openWith [0x40] with lastFb := true } : Enc).lastFb = true ∧
    (0x41 : Byte) ≠ cfgA.pointChar.code ∧ ({ openWith [] with escSt := .mark } : Enc).escSt ≠ .none := by decide

/-- A glyph of its own, the fallback's, none; with room for one byte and with none. -/
theorem witness_OrdinaryCharacterIsLookedUp :
    (openWith [0x77]).mode = .opened ∧ (openWith [0x77]).escSt = .none ∧
    (0x41 : Byte) ≠ cfgD.pointChar.code ∧ (0x41 : Byte) ≠ cfgD.escChar ∧ fontGlyph cfgD 0x41 = some 0x77 ∧
    fontGlyph cfgC 0x5A = none ∧ cfgC.fallbackChar = some 0x2D ∧ fontGlyph cfgC 0x2D = some 0x40 ∧
    fontGlyph cfgD 0x5A = none ∧ cfgD.fallbackChar = none ∧
    (openWith [1, 2, 3]).msgLen ≠ cfgD.msgMax ∧ (openWith [1, 2, 3, 4]).msgLen = cfgD.msgMax := by decide

theorem witness_PointMergesIntoTheLastByte :
    (openWith []).mode = .opened ∧ (openWith []).escSt = .none ∧ (openWith []).msgLen = 0 ∧ 0 < (openWith [0x77]).msgLen ∧
    (openWith [0x77]).lastFb = false ∧ ({ openWith [0x40] with lastFb := true } : Enc).lastFb = true ∧
    cfgC.pointAfterFallback = .lookup ∧ compatQ cfgC = false ∧ resolve cfgC cfgC.pointChar.code = some (0x40, true) ∧
    resolve { cfgC with fallbackChar := none } cfgC.pointChar.code = none ∧
    (openWith [1, 2, 3, 4]).msgLen = ({ cfgC with msgMax := 4 } : Config).msgMax ∧
    compatQ cfgB = true ∧ cfgB.fallbackChar = some 0x5F ∧ cfgB.font.lookup 0x5F = some 0x08 ∧ 0x08 = cfgB.undefGlyph := by decide

/-- The escape states, and both sides of each end of the three ranges of hex digits. -/
theorem witness_EscapesAreRecognised :
    ([(0x2F, 0x30), (0x3A, 0x39), (0x40, 0x41), (0x47, 0x46), (0x60, 0x61), (0x67, 0x66)].all fun (p : Byte × Byte) =>
      !isHex p.1 && isHex p.2) = true ∧
    (0x30 ≤ (0x39 : Byte).toNat ∧ (0x39 : Byte).toNat ≤ 0x39 ∧ 0x41 ≤ (0x46 : Byte).toNat ∧ (0x46 : Byte).toNat ≤ 0x46 ∧
      0x61 ≤ (0x66 : Byte).toNat ∧ (0x66 : Byte).toNat ≤ 0x66) ∧
    (cfgA.wf = true ∧ cfgNoMark.wf = true ∧ cfgD.wf = true ∧ (openWith []).mode = .opened ∧ cfgA.escChar = 0x23) ∧
    (resolve cfgNoMark cfgNoMark.escChar = none ∧ resolve cfgD cfgD.escChar = some (0x49, false)) ∧
    ({ openWith [] with escSt := .mark } : Enc).escSt = .mark ∧ ({ openWith [] with escSt := .hex1 } : Enc).escSt = .hex1 ∧
    (openWith [1, 2, 3]).msgLen ≠ cfgD.msgMax ∧ (openWith [1, 2, 3, 4]).msgLen = cfgD.msgMax := by
  refine ⟨?_, ?_, ?_, ?_, ?_⟩ <;> decide

/-- The digits 9 and a (in lower case), and F and 0; and characters on both sides of the ends of the three ranges. -/
theorem witness_LiteralEscapeEmitsItsByte :
    cfgD.wf = true ∧ (openWith [1, 2, 3]).mode = .opened ∧ (openWith [1, 2, 3]).escSt = .none ∧
    (openWith [1, 2, 3]).msgLen < cfgD.msgMax ∧
    (∀ q ∈ ([(9, 0x39), (10, 0x61), (15, 0x46), (0, 0x30)] : List (Nat × Byte)), q.1 < 16 ∧
      ((q.1 < 10 ∧ q.2 = BitVec.ofNat 8 (0x30 + q.1)) ∨
        (10 ≤ q.1 ∧ (q.2 = BitVec.ofNat 8 (0x41 + (q.1 - 10)) ∨ q.2 = BitVec.ofNat 8 (0x61 + (q.1 - 10)))))) ∧
    (∀ c ∈ ([0x2F, 0x3A, 0x40, 0x47, 0x60, 0x67] : List Byte), c ≠ cfgD.escChar ∧
      ¬((0x30 ≤ c.toNat ∧ c.toNat ≤ 0x39) ∨ (0x41 ≤ c.toNat ∧ c.toNat ≤ 0x46) ∨ (0x61 ≤ c.toNat ∧ c.toNat ≤ 0x66))) ∧
    (∀ c ∈ ([0x30, 0x39, 0x41, 0x46, 0x61, 0x66] : List Byte),
      (0x30 ≤ c.toNat ∧ c.toNat ≤ 0x39) ∨ (0x41 ≤ c.toNat ∧ c.toNat ≤ 0x46) ∨ (0x61 ≤ c.toNat ∧ c.toNat ≤ 0x66)) := by decide

/-- ENC_END in each mode; with blanks that leave the session open, with an escape left open and no blanks, and with blanks that fail. -/
theorem witness_EncEndClosesTheSession :
    (0x01 : Byte) ≠ 0 ∧ (start cfgA []).enc.mode = .idle ∧ (openWith [0x77]).mode = .opened ∧
    (encSteps cfgA (List.replicate 1 cfgA.padChar) (openWith [0x77])).mode = .opened ∧
    (encSteps cfgA (List.replicate 1 cfgA.padChar) (openWith [0x77])).escSt = .none ∧
    (encSteps cfgA (List.replicate 0 cfgA.padChar) { openWith [0x77] with escSt := .mark }).escSt ≠ .none ∧
    (encSteps cfgNoBlank (List.replicate 1 cfgNoBlank.padChar) (openWith [0x77])).mode ≠ .opened := by decide

theorem witness_EncEndAppendsThePadding :
    cfgD.wf = true ∧ cfgNoBlank.wf = true ∧ (openWith [1, 2]).mode = .opened ∧ (openWith [1, 2]).escSt = .none ∧
    resolve cfgD cfgD.padChar = some (0x00, false) ∧
    ({ openWith [1, 2] with padSuf := 2 } : Enc).msgLen + ({ openWith [1, 2] with padSuf := 2 } : Enc).padSuf ≤ cfgD.msgMax ∧
    (openWith [1, 2]).msgLen ≤ cfgD.msgMax ∧ (openWith [1, 2, 3, 4]).msgLen ≤ cfgD.msgMax ∧
    cfgD.msgMax < ({ openWith [1, 2] with padSuf := 3 } : Enc).msgLen + ({ openWith [1, 2] with padSuf := 3 } : Enc).padSuf ∧
    cfgD.msgMax < ({ openWith [1, 2, 3, 4] with padSuf := 1 } : Enc).msgLen + ({ openWith [1, 2, 3, 4] with padSuf := 1 } : Enc).padSuf ∧
    resolve cfgNoBlank cfgNoBlank.padChar = none ∧ 0 < ({ openWith [1, 2] with padSuf := 1 } : Enc).padSuf ∧
    ({ openWith [1, 2] with escSt := .hex1 } : Enc).escSt ≠ .none ∧ isHex cfgD.padChar = false := by decide

/-- The last readable index, the first one out of range, the last byte of the message and the one after it. -/
theorem witness_RdMsgReadsOneByte :
    (0x01 : Byte) ≠ 0 ∧ cfgD.msgMax ≤ (0x04 : Byte).toNat ∧ (0x03 : Byte).toNat < cfgD.msgMax ∧ (0x03 : Byte).toNat < (openWith [1, 2, 3, 4]).msgLen ∧
    (openWith [1, 2, 3, 4]).msgBuf.read (0x03 : Byte).toNat = some 4 ∧ (openWith [1, 2]).msgLen ≤ (0x02 : Byte).toNat := by decide

theorem witness_NopDoesNothing : ∃ s : State, s.port = ⟨false, true, 0x000000⟩ ∧ s.busy = true :=
  ⟨{ start cfgA [0x000000] with stallLeft := 1 }, rfl, rfl⟩

theorem witness_ErrclrClearsTheCommandError :
    (∃ t, exec .errclr { start cfgA [] with cmdErr := 3 } = .next t ∧ (t.cmdErr == 0) = true) ∧
    (start cfgA []).cmdErr = 0 ∧ ((0x00 : Byte) ≠ 0 ∨ (0x01 : Byte) ≠ 0) ∧
    ({ start cfgA [] with cmdErr := 3 } : State).status = 0x0060 :=
  ⟨exists_next (by decide), by decide, by decide, by decide⟩

/-- A word for each cause, from reset. -/
theorem witness_CommandErrorsHaveTheirCauses :
    (start cfgA []).cmdErr = 0 ∧ decode 0x030000 = .error .illegalOp ∧ decode 0x000001 = .error .reservedNz ∧
    (start cfgA []).enc.mode = .idle ∧ decode 0x110041 = .ok (.encChar 0x41) ∧ decode 0x120000 = .ok .encEnd ∧
    decode 0x2000FF = .ok (.rdMsg 0xFF) ∧ (start cfgA []).cfg.msgMax ≤ (0xFF : Byte).toNat := by decide

theorem witness_FirstEncoderErrorWins :
    (openWith [0x77]).mode = .opened ∧ (encStep cfgA 0x5A (openWith [0x77])).mode = .err ∧
    ({ openWith [0x77] with mode := .err, err := .lookup } : Enc).mode = .err := by decide

theorem witness_CommandsComputeEncode :
    (decode 0x130000 = .ok .encBeginA ∧ 4 = (start cfgA []).cfg.nDigits) ∧
    (decode 0x10007F = .ok (.encBegin 0x7F) ∧ 127 = (0x7F : Byte).toNat) ∧
    ∀ w ∈ ([0x110041, 0x000000, 0x013F08, 0x200000, 0x300000, 0xFFFFFF, 0x11002E] : List Word), keepsSession w = true :=
  ⟨⟨by decide, rfl⟩, ⟨by decide, by decide⟩, List.all_eq_true.mp (by decide)⟩

theorem witness_PaddingIsOrdinaryText :
    cfgA.wf = true ∧ fontGlyph cfgA cfgA.padChar = some 0x00 ∧ 2 ≤ ({ cfgA with msgMax := 2 } : Config).msgMax ∧
    (0x41 : Byte) ≠ cfgA.pointChar.code ∧ (0x41 : Byte) ≠ cfgA.escChar ∧ fontGlyph cfgA 0x41 = some 0x77 ∧
    isHex cfgA.padChar = false ∧ cfgNoBlank.wf = true ∧ fontGlyph cfgNoBlank cfgNoBlank.padChar = none ∧
    cfgNoBlank.fallbackChar = none ∧ 0 < 1 := by decide

/-- The text of E28, and the text of E13 (three of the kinds of byte R93 counts), with one blank each side. -/
theorem witness_EncodedLengthLaw : cfgA.wf = true ∧ isHex cfgA.padChar = false ∧
    encodeFrom cfgA [0x41] 1 Enc.reset = .ok [0x00, 0x77, 0x00] ∧
    encodeFrom cfgA [0x23, 0x33, 0x46, 0x23, 0x23, 0x41, 0x2E] 1 Enc.reset = .ok [0x00, 0x3F, 0x49, 0xF7, 0x00] := by decide

theorem witness_FallbackRulesOutLookup : cfgB.fallbackChar = some 0x5F ∧ fontGlyph cfgB 0x5F = some 0x08 := by decide

end Sys2Proof.Tests
end

section
/-! PROOFS of 00_scope.md: what R6 asks of an instance, and that nothing else is refused. -/

namespace Sys2Proof

/-- `Config.wf` as the seven conditions (a) to (g) of R6. -/
theorem Config.wf_iff (c : Config) : c.wf = true ↔
    c.escChar ≠ c.pointChar.code ∧
    (c.escChar ≠ c.padChar ∧ c.pointChar.code ≠ c.padChar) ∧
    Machine.isHex c.escChar = false ∧
    c.nDigits = c.digitMasks.length ∧
    (1 ≤ c.nDigits ∧ c.nDigits ≤ 8) ∧
    (1 ≤ c.msgMax ∧ c.msgMax ≤ 255) ∧
    1 ≤ c.tPhase := by
  simp only [Config.wf, Bool.and_eq_true, bne_iff_ne, Bool.not_eq_true', beq_iff_eq, decide_eq_true_eq, and_assoc]

end Sys2Proof

namespace Sys2Proof.Machine

/-- A tick without reset and without an unproduced error code always completes (R31(b) to (d)). -/
theorem runTick_next (s : State) : ∃ t, runTick s = .next t := by
  unfold runTick
  split
  case h_1 => exact ⟨_, rfl⟩
  case h_2 =>
    split
    case isTrue =>
      obtain ⟨u, hu, -⟩ := acceptWord_next s.port.word s
      exact ⟨endTick (drawStall u), by rw [hu, endAccept]⟩
    case isFalse => exact ⟨_, rfl⟩

/-- A tick may fault (U17), but it refuses nothing. -/
theorem tick_ne_refused (s : State) (r : Refusal) : tick s ≠ .refused r := by
  obtain ⟨t, ht⟩ := runTick_next s
  unfold tick
  split
  case isTrue => simp
  case isFalse => split <;> simp [ht]

/-- The one refusal of `step` is that of an ill-formed instance (R6, entry 3). -/
theorem step_eq_refused_iff (s : State) : step s = .refused .illFormedConfig ↔ s.cfg.wf = false := by
  unfold step
  split
  case isTrue hw => simp [hw, tick_ne_refused]
  case isFalse hw => simpa using hw

/-- Settles O13: each condition of R6 is a conjunct of `Config.wf`, and no tick refuses, so `step` refuses for `Config.wf` alone. -/
theorem illFormedInstanceIsRefused : Obligations.IllFormedInstanceIsRefused :=
  ⟨Config.wf_iff, step_eq_refused_iff⟩

end Sys2Proof.Machine
end

section
/-! PROOFS of 10_state.md: what a command and an accepted word can do, said once. -/

namespace Sys2Proof.Machine

/-- What one command can do to a state `s`. -/
inductive ExecMove (i : Instr) (s : State) : State → Prop where
  /-- nothing (NOP, and the encoder's commands that an encoder error swallows, R95) -/
  | same : ExecMove i s s
  /-- a transaction begins (R61) -/
  | started (seg dig : Byte) (hi : i = .tx seg dig ∨ (i = .clr dig ∧ seg = 0)) :
      ExecMove i s (startTx (txFrame s.cfg seg dig) s)
  /-- a session begins (R86) -/
  | begun (padn : Nat) (hp : (i = .encBeginA ∧ padn = s.cfg.nDigits) ∨ ∃ b, i = .encBegin b ∧ padn = padCount b) :
      ExecMove i s { s with enc := encBegin s.cfg padn s.enc }
  /-- an open session takes a character (R87) -/
  | stepped (c : Byte) (hi : i = .encChar c) (ho : s.enc.mode = .opened) :
      ExecMove i s { s with enc := encStep s.cfg c s.enc }
  /-- an open session ends (R88) -/
  | ended (hi : i = .encEnd) (ho : s.enc.mode = .opened) : ExecMove i s { s with enc := encEnd s.cfg s.enc }
  /-- a command error is recorded (R101) -/
  | raised (c : CmdError) : ExecMove i s (raiseCmdError c s)
  /-- a byte of the message is read (R89) -/
  | read (idx v : Byte) (hi : i = .rdMsg idx) (inside : idx.toNat < s.cfg.msgMax) : ExecMove i s { s with resp := v }
  /-- the command error is cleared (R99) -/
  | cleared (hi : i = .errclr) : ExecMove i s (clearCmdError s)

/-- Every command does one of these moves, in every state. -/
theorem exec_move (i : Instr) (s : State) : ∃ t, exec i s = .next t ∧ ExecMove i s t := by
  cases i with
  | nop => exact ⟨_, rfl, .same⟩
  | tx seg dig => exact ⟨_, rfl, .started seg dig (.inl rfl)⟩
  | clr dig => exact ⟨_, rfl, .started 0 dig (.inr ⟨rfl, rfl⟩)⟩
  | encBegin b => exact ⟨_, rfl, .begun _ (.inr ⟨b, rfl, rfl⟩)⟩
  | encBeginA => exact ⟨_, rfl, .begun _ (.inl ⟨rfl, rfl⟩)⟩
  | encChar c =>
    simp only [exec, execEncChar]
    split
    · rename_i ho
      exact ⟨_, rfl, .stepped c rfl ho⟩
    · exact ⟨_, rfl, .same⟩
    all_goals exact ⟨_, rfl, .raised .sequence⟩
  | encEnd =>
    simp only [exec, execEncEnd]
    split
    · rename_i ho
      exact ⟨_, rfl, .ended rfl ho⟩
    · exact ⟨_, rfl, .same⟩
    all_goals exact ⟨_, rfl, .raised .sequence⟩
  | rdMsg idx =>
    simp only [exec, execRdMsg]
    split
    case isTrue => exact ⟨_, rfl, .raised .range⟩
    case isFalse hi =>
      split
      all_goals exact ⟨_, rfl, .read idx _ rfl (Nat.lt_of_not_le hi)⟩
  | errclr => exact ⟨_, rfl, .cleared rfl⟩

/-- The frame of a command: the sequencer, the encoder, CMD_ERR_CODE and RESP are all it can change. -/
theorem ExecMove.frame {i : Instr} {s t : State} (move : ExecMove i s t) :
    t = { s with tx := t.tx, enc := t.enc, cmdErr := t.cmdErr, resp := t.resp } := by
  cases move with
  | raised c => simp only [raiseCmdError_eq]
  | _ => rfl

/-- An accepted word does the moves of its command, or records that it is none (R31(c), R53). -/
theorem acceptWord_cases {w : Word} {s u : State} (h : acceptWord w s = .next u) :
    (∃ i, decode w = .ok i ∧ ExecMove i s u) ∨ ∃ c, decode w = .error c ∧ u = raiseCmdError c s := by
  unfold acceptWord at h
  split at h
  · rename_i i hd
    obtain ⟨t, ht, move⟩ := exec_move i s
    obtain rfl : t = u := by simpa [ht] using h
    exact .inl ⟨i, hd, move⟩
  · rename_i c hd
    exact .inr ⟨c, hd, by simpa using h.symm⟩

/-- Settles O11: a command does one of the moves of `ExecMove`, and each of them keeps the frame. -/
theorem everyCommandCompletes : Obligations.EveryCommandCompletes := by
  intro i s
  obtain ⟨t, ht, move⟩ := exec_move i s
  exact ⟨t, ht, move.frame⟩

end Sys2Proof.Machine
end

section
/-! PROOFS of 10_state.md: the encoder keeps its invariant (R24 to R29). -/

namespace Sys2Proof.Machine

/-- The encoder's reset values have the invariant (R115). -/
theorem encInv_of_reset (cfg : Config) : EncInv cfg Enc.reset where
  err := by decide
  len := Nat.zero_le _
  canon := List.Pairwise.nil
  written := fun _ hi => absurd hi (Nat.not_lt_zero _)
  inside := fun _ hi => absurd hi Bool.false_ne_true
  pad := Nat.zero_le _
  fallback := fun hf => absurd hf Bool.false_ne_true
  fresh := fun _ => rfl
  closed := fun _ => rfl

/-- MSGBUF after a byte of it is stored (R38): canonical, the message and the new byte written, and nothing outside. -/
theorem EncInv.store {cfg : Config} {e : Enc} (h : EncInv cfg e) {i : Nat} (v : Byte) (hi : i < cfg.msgMax) :
    (e.msgBuf.write i v).wf ∧
    (∀ j, (j < e.msgLen ∨ j = i) → ((e.msgBuf.write i v).read j).isSome) ∧
    ∀ j, ((e.msgBuf.write i v).read j).isSome → j < cfg.msgMax := by
  refine ⟨Memory.write_wf h.canon i v, fun j hj => ?_, fun j => ?_⟩
  · rw [Memory.read_write]
    split
    case isTrue => rfl
    case isFalse hne => exact h.written j (hj.resolve_right hne)
  · rw [Memory.read_write]
    split
    case isTrue hji => exact fun _ => hji ▸ hi
    case isFalse => exact h.inside j

/-- One move of an open session keeps the invariant. -/
theorem EncInv.move {cfg : Config} {e e' : Enc} (h : EncInv cfg e) (ho : e.mode = .opened) (move : EncMove cfg e e') :
    EncInv cfg e' := by
  have notIdle : e.mode ≠ .idle := by simp [ho]
  have notDone : e.mode ≠ .done := by simp [ho]
  cases move with
  | escape st hi => exact { h with closed := fun hd => absurd hd notDone }
  | failed st r hr => exact { h with err := by simp [hr], fresh := nofun, closed := nofun }
  | appended st g fb room hfb =>
    have hlt : e.msgLen < cfg.msgMax := Nat.lt_of_le_of_ne h.len room
    obtain ⟨canon, written, inside⟩ := h.store g hlt
    exact { h with
      len := hlt
      canon := canon
      written := fun j hj => written j (Nat.lt_succ_iff_lt_or_eq.mp hj)
      inside := inside
      fallback := fun hf => by
        obtain ⟨f, hfc, hg⟩ := hfb hf
        exact ⟨Nat.succ_pos _, f, g, hfc, hg, .inl (by simp [msgRead])⟩
      fresh := fun hi => absurd hi notIdle
      closed := fun hd => absurd hd notDone }
  | merged pos =>
    obtain ⟨canon, written, inside⟩ :=
      h.store (i := e.msgLen - 1) (msgRead e (e.msgLen - 1) ||| dpBit) (by have := h.len; omega)
    exact { h with
      canon := canon
      written := fun j hj => written j (.inl hj)
      inside := inside
      fallback := fun hf => by
        obtain ⟨_, f, g, hfc, hg, hlast⟩ := h.fallback hf
        refine ⟨pos, f, g, hfc, hg, .inr ?_⟩
        rw [msgRead_of_write rfl, if_pos rfl]
        rcases hlast with hlast | hlast
        · rw [hlast]
        · rw [hlast, BitVec.or_assoc, BitVec.or_self] }

/-- One character keeps the invariant (R80). -/
theorem EncInv.step {cfg : Config} {e : Enc} (h : EncInv cfg e) (c : Byte) : EncInv cfg (encStep cfg c e) := by
  by_cases ho : e.mode = .opened
  · exact h.move ho (encStep_move cfg c e)
  · rwa [encStep_of_not_opened ho]

theorem EncInv.padding {cfg : Config} (n : Nat) {e : Enc} (h : EncInv cfg e) : EncInv cfg (encPad cfg n e) := by
  induction n generalizing e with
  | zero => exact h
  | succ n ih => exact ih (h.step cfg.padChar)

/-- ENC_BEGIN keeps the invariant (R86). -/
theorem EncInv.encBegin {cfg : Config} {e : Enc} (h : EncInv cfg e) {padn : Nat} (hp : padn ≤ 127) :
    EncInv cfg (encBegin cfg padn e) := by
  have opened : EncInv cfg (encOpen padn e) := { h with
    err := by simp [encOpen]
    len := Nat.zero_le _
    written := fun _ hi => absurd hi (Nat.not_lt_zero _)
    pad := hp
    fallback := nofun
    fresh := nofun
    closed := nofun }
  exact opened.padding padn

theorem EncInv.close {cfg : Config} {e : Enc} (h : EncInv cfg e) : EncInv cfg (encClose e) := by
  by_cases ho : e.mode = .opened
  · unfold encClose
    rw [ho]
    dsimp only
    split
    case isTrue hs =>
      exact { h with err := by simp [h.err, ho], fresh := nofun, closed := fun _ => hs }
    case isFalse => exact h.move ho (.failed e.escSt .escape (by decide))
  · rwa [encClose_of_not_opened ho]

/-- ENC_END keeps the invariant (R88). -/
theorem EncInv.encEnd {cfg : Config} {e : Enc} (h : EncInv cfg e) : EncInv cfg (encEnd cfg e) :=
  (h.padding e.padSuf).close

/-- Every command keeps the encoder's invariant: padding counts are below 128 (R51, R6). -/
theorem ExecMove.encInv {i : Instr} {s t : State} (move : ExecMove i s t) (hw : s.cfg.wf = true)
    (h : EncInv s.cfg s.enc) : EncInv s.cfg t.enc := by
  cases move with
  | same | started | read | cleared => exact h
  | raised c => rwa [raiseCmdError_eq]
  | stepped c => exact h.step c
  | ended => exact h.encEnd
  | begun padn hp =>
    apply h.encBegin
    rcases hp with ⟨-, rfl⟩ | ⟨b, -, rfl⟩
    · obtain ⟨-, hd, -⟩ := wf_bounds hw
      omega
    · exact padCount_le b

end Sys2Proof.Machine
end

section
/-! PROOFS of 10_state.md: the lines and the receiver follow the events of a transaction (R21, R22, R65, R73). -/

namespace Sys2Proof.Machine

/-! ### The events one by one -/

/-- The five kinds of event: bit `i` goes on DATA, SCLK falls, SCLK rises, and the two halves of the latch pulse (R65). -/
theorem event_kinds {k : Nat} (h : k < 50) :
    (∃ i < 16, k = 3 * i) ∨ (∃ i < 16, k = 3 * i + 1) ∨ (∃ i < 16, k = 3 * i + 2) ∨ k = 48 ∨ k = 49 := by
  by_cases hk : k < 48
  · have hi : k / 3 < 16 := by omega
    have hr : k % 3 = 0 ∨ k % 3 = 1 ∨ k % 3 = 2 := by omega
    rcases hr with hr | hr | hr
    · exact .inl ⟨k / 3, hi, by omega⟩
    · exact .inr (.inl ⟨k / 3, hi, by omega⟩)
    · exact .inr (.inr (.inl ⟨k / 3, hi, by omega⟩))
  · omega

theorem lineEvent_data (f : Frame) {i : Nat} (hi : i < 16) : lineEvent f (3 * i) = .data (f.getLsbD (15 - i)) := by
  unfold lineEvent
  rw [if_pos (by omega), if_pos (by omega), Nat.mul_div_cancel_left i (by decide)]

theorem lineEvent_fall (f : Frame) {i : Nat} (hi : i < 16) : lineEvent f (3 * i + 1) = .sclk false := by
  unfold lineEvent
  rw [if_pos (by omega), if_neg (by omega), if_pos (by omega)]

theorem lineEvent_rise (f : Frame) {i : Nat} (hi : i < 16) : lineEvent f (3 * i + 2) = .sclk true := by
  unfold lineEvent
  rw [if_pos (by omega), if_neg (by omega), if_neg (by omega)]

@[simp] theorem lineEvent_latchLow (f : Frame) : lineEvent f 48 = .rclk false := rfl
@[simp] theorem lineEvent_latchHigh (f : Frame) : lineEvent f 49 = .rclk true := rfl

/-! ### What the first `k` events leave -/

/-- The lines after the first `k` events of a transaction of frame `f`, as `TxInv` has them. -/
structure LinesAfter (f : Frame) (k : Nat) (l : Lines) : Prop where
  sclk : l.sclk = false ↔ k % 3 = 2 ∧ k < 48
  rclk : l.rclk = false ↔ k = 49
  data : 0 < k → l.data = f.getLsbD (15 - min 15 ((k - 1) / 3))

/-- The receiver after the first `k` events of a transaction of frame `f`, as `RxInv` has it. -/
structure RxAfter (f : Frame) (k : Nat) (r : Receiver) : Prop where
  sr  : r.sr.toNat % 2 ^ min 16 (k / 3) = f.toNat / 2 ^ (16 - min 16 (k / 3))
  lat : k = 50 → r.lat = f

/-- A level that is low exactly when `p` holds. -/
theorem eq_not_decide_iff (b : Bool) (p : Prop) [Decidable p] : b = !decide p ↔ (b = false ↔ p) := by
  by_cases hp : p <;> simp [hp]

/-- `TxInv` during a transaction. -/
theorem txInv_busy {s : State} (hb : s.tx.state = .busy) :
    TxInv s ↔ s.tx.cnt < 50 * s.cfg.tPhase ∧ LinesAfter s.tx.frame (eventsDone s) s.lines := by
  unfold TxInv
  rw [hb]
  simp only [eq_not_decide_iff]
  exact and_congr_right fun _ => ⟨fun ⟨hs, hr, hd⟩ => ⟨hs, hr, hd⟩, fun ⟨hs, hr, hd⟩ => ⟨hs, hr, hd⟩⟩

/-- `TxInv` between transactions. -/
theorem txInv_idle {s : State} (hi : s.tx.state = .idle) :
    TxInv s ↔ s.tx.cnt = 0 ∧ s.lines = ⟨s.tx.frame.getLsbD 0, true, true⟩ := by
  unfold TxInv
  rw [hi]

/-- `RxInv` during a transaction. -/
theorem rxInv_busy {s : State} (hb : s.tx.state = .busy) : RxInv s ↔ RxAfter s.tx.frame (eventsDone s) s.rx :=
  ⟨fun h => ⟨(h hb).1, (h hb).2⟩, fun h _ => ⟨h.sr, h.lat⟩⟩

/-- Before the first event SCLK and RCLK are high (R67). -/
theorem linesAfter_zero (f : Frame) {l : Lines} (hs : l.sclk = true) (hr : l.rclk = true) : LinesAfter f 0 l where
  sclk := by simp [hs]
  rclk := by simp [hr]
  data := fun h => absurd h (Nat.lt_irrefl 0)

/-- Before the first event the receiver may hold anything (R36). -/
theorem rxAfter_zero (f : Frame) (r : Receiver) : RxAfter f 0 r where
  sr := by
    have := f.isLt
    simp only [Nat.zero_div, Nat.min_zero, Nat.sub_zero, pow_zero, Nat.mod_one]
    omega
  lat := fun h => absurd h (by decide)

/-- After the last event the lines stand idle with DATA the last bit (R67). -/
theorem LinesAfter.all_done {f : Frame} {l : Lines} (h : LinesAfter f 50 l) : l = ⟨f.getLsbD 0, true, true⟩ := by
  obtain ⟨data, sclk, rclk⟩ := l
  obtain ⟨hs, hr, hd⟩ := h
  simpa using And.intro (hd (by decide)) (And.intro hs hr)

/-- Event `k` takes the lines from `k` events done to `k + 1` (R65). -/
theorem LinesAfter.event {s : State} {f : Frame} {k : Nat} (hk : k < 50) (h : LinesAfter f k s.lines) :
    LinesAfter f (k + 1) (lineWrite (lineEvent f k) s).lines := by
  have keepSclk (hp : (k % 3 = 2 ∧ k < 48) ↔ ((k + 1) % 3 = 2 ∧ k + 1 < 48)) := h.sclk.trans hp
  have keepRclk (hp : k = 49 ↔ k + 1 = 49) := h.rclk.trans hp
  have keepData (h0 : 0 < k) (hp : min 15 ((k - 1) / 3) = min 15 (k / 3)) :
      s.lines.data = f.getLsbD (15 - min 15 ((k + 1 - 1) / 3)) := hp ▸ h.data h0
  rcases event_kinds hk with ⟨i, hi, rfl⟩ | ⟨i, hi, rfl⟩ | ⟨i, hi, rfl⟩ | rfl | rfl
  · rw [lineEvent_data f hi]
    exact ⟨keepSclk (by omega), keepRclk (by omega), fun _ => congrArg f.getLsbD (by omega)⟩
  · rw [lineEvent_fall f hi]
    exact ⟨iff_of_true rfl (by omega), keepRclk (by omega), fun _ => keepData (by omega) (by omega)⟩
  · rw [lineEvent_rise f hi]
    exact ⟨iff_of_false nofun (by omega), keepRclk (by omega), fun _ => keepData (by omega) (by omega)⟩
  · exact ⟨keepSclk (by decide), iff_of_true rfl rfl, fun _ => keepData (by decide) (by decide)⟩
  · exact ⟨keepSclk (by decide), iff_of_false nofun (by decide), fun _ => keepData (by decide) (by decide)⟩

/-! ### The receiver's answers (R73) -/

@[simp] theorem Receiver.onSclk_fall (l : Lines) (r : Receiver) : r.onSclk l false = r := by simp [Receiver.onSclk]
@[simp] theorem Receiver.onRclk_fall (l : Lines) (r : Receiver) : r.onRclk l false = r := by simp [Receiver.onRclk]

theorem Receiver.onSclk_rise {l : Lines} (h : l.sclk = false) (r : Receiver) :
    r.onSclk l true = { r with sr := r.sr.extractLsb' 0 15 ++ BitVec.ofBool l.data } := by simp [Receiver.onSclk, h]

theorem Receiver.onRclk_rise {l : Lines} (h : l.rclk = false) (r : Receiver) :
    r.onRclk l true = { r with lat := r.sr } := by simp [Receiver.onRclk, h]

/-- Event `k` takes the receiver from `k` events done to `k + 1`: each rising SCLK shifts the next bit of the frame in, and the
rising RCLK latches the whole of it (R65, R73). -/
theorem RxAfter.event {s : State} {f : Frame} {k : Nat} (hk : k < 50) (hl : LinesAfter f k s.lines)
    (h : RxAfter f k s.rx) : RxAfter f (k + 1) (lineWrite (lineEvent f k) s).rx := by
  have keep (hp : min 16 ((k + 1) / 3) = min 16 (k / 3)) (hne : k + 1 ≠ 50) : RxAfter f (k + 1) s.rx :=
    ⟨by rw [hp]; exact h.sr, fun he => absurd he hne⟩
  rcases event_kinds hk with ⟨i, hi, rfl⟩ | ⟨i, hi, rfl⟩ | ⟨i, hi, rfl⟩ | rfl | rfl
  · rw [lineEvent_data f hi]
    exact keep (by omega) (by omega)
  · rw [lineEvent_fall f hi, lineWrite_sclk_rx, Receiver.onSclk_fall]
    exact keep (by omega) (by omega)
  · have low : s.lines.sclk = false := hl.sclk.mpr (by omega)
    have bit : s.lines.data.toNat = f.toNat / 2 ^ (15 - i) % 2 := by
      rw [hl.data (by omega), frame_bit, show min 15 ((3 * i + 2 - 1) / 3) = i by omega]
    have taken := h.sr
    rw [show min 16 ((3 * i + 2) / 3) = i by omega] at taken
    rw [lineEvent_rise f hi, lineWrite_sclk_rx, Receiver.onSclk_rise low]
    refine ⟨?_, by omega⟩
    rw [shifted_toNat, bit, show min 16 ((3 * i + 2 + 1) / 3) = i + 1 by omega,
      Nat.mod_mod_of_dvd _ (Nat.pow_dvd_pow 2 (show i + 1 ≤ 16 by omega))]
    exact shift_in f.toNat s.rx.sr.toNat i hi taken f.isLt
  · rw [lineEvent_latchLow, lineWrite_rclk_rx, Receiver.onRclk_fall]
    exact keep (by decide) (by decide)
  · have low : s.lines.rclk = false := hl.rclk.mpr rfl
    have whole : s.rx.sr = f := BitVec.eq_of_toNat_eq (by simpa [Nat.mod_eq_of_lt s.rx.sr.isLt] using h.sr)
    rw [lineEvent_latchHigh, lineWrite_rclk_rx, Receiver.onRclk_rise low]
    exact ⟨h.sr, fun _ => whole⟩

/-! ### A tick of the sequencer -/

/-- A tick of a transaction takes lines and receiver to the events that the next count has done (R66). -/
theorem txEvent_after {s : State} (hT : 1 ≤ s.cfg.tPhase) (hc : s.tx.cnt < 50 * s.cfg.tPhase)
    (hl : LinesAfter s.tx.frame (eventsDone s) s.lines) (hr : RxAfter s.tx.frame (eventsDone s) s.rx) :
    LinesAfter s.tx.frame ((s.tx.cnt + 1 + s.cfg.tPhase - 1) / s.cfg.tPhase) (txEvent s).lines ∧
    RxAfter s.tx.frame ((s.tx.cnt + 1 + s.cfg.tPhase - 1) / s.cfg.tPhase) (txEvent s).rx := by
  unfold eventsDone at hl hr
  unfold txEvent
  split
  case isTrue he =>
    obtain ⟨done, next⟩ := events_at hT he
    rw [done] at hl hr
    rw [next]
    exact ⟨hl.event (event_lt hc), hr.event (event_lt hc) hl⟩
  case isFalse he =>
    rw [events_between hT he]
    exact ⟨hl, hr⟩

/-- The last tick of a transaction (R66). -/
theorem txCount_last {n : Nat} {t : Tx} (h : t.cnt = 50 * n - 1) : txCount n t = ⟨.idle, t.frame, 0⟩ := by
  simp [txCount, h]

/-- Every other tick of a transaction (R66). -/
theorem txCount_other {n : Nat} {t : Tx} (h : t.cnt ≠ 50 * n - 1) : txCount n t = { t with cnt := t.cnt + 1 } := by
  simp [txCount, h]

/-- A tick of a transaction keeps the invariants of sequencer, lines and receiver. -/
theorem txTick_inv {s : State} (hT : 1 ≤ s.cfg.tPhase) (hb : s.tx.state = .busy) (ht : TxInv s) (hr : RxInv s) :
    TxInv (txTick s) ∧ RxInv (txTick s) := by
  obtain ⟨hc, hl⟩ := (txInv_busy hb).mp ht
  obtain ⟨lines, rx⟩ := txEvent_after hT hc hl ((rxInv_busy hb).mp hr)
  by_cases last : s.tx.cnt = 50 * s.cfg.tPhase - 1
  · have tx : (txTick s).tx = ⟨.idle, s.tx.frame, 0⟩ := by rw [txTick_tx, txCount_last last]
    have all : (s.tx.cnt + 1 + s.cfg.tPhase - 1) / s.cfg.tPhase = 50 := by
      rw [show s.tx.cnt + 1 + s.cfg.tPhase - 1 = s.cfg.tPhase - 1 + s.cfg.tPhase * 50 by omega,
        Nat.add_mul_div_left _ _ hT, Nat.div_eq_of_lt (by omega)]
    rw [all] at lines
    constructor
    · rw [txInv_idle (by rw [tx]), tx]
      exact ⟨rfl, lines.all_done⟩
    · intro busy
      rw [tx] at busy
      cases busy
  · have lt : s.tx.cnt + 1 < 50 * s.cfg.tPhase := by omega
    have tx : (txTick s).tx = { s.tx with cnt := s.tx.cnt + 1 } := by rw [txTick_tx, txCount_other last]
    have busy : (txTick s).tx.state = .busy := by rw [tx]; exact hb
    rw [txInv_busy busy, rxInv_busy busy, eventsDone, tx, txTick_cfg]
    exact ⟨⟨lt, lines⟩, rx⟩

/-- A transaction that begins from idle lines has the invariants (R61). -/
theorem startTx_inv {s : State} (f : Frame) (hT : 1 ≤ s.cfg.tPhase) (hi : s.tx.state = .idle) (ht : TxInv s) :
    TxInv (startTx f s) ∧ RxInv (startTx f s) := by
  obtain ⟨-, idle⟩ := (txInv_idle hi).mp ht
  have zero : eventsDone (startTx f s) = 0 := events_start hT
  rw [txInv_busy rfl, rxInv_busy rfl, zero]
  refine ⟨⟨?_, linesAfter_zero f ?_ ?_⟩, rxAfter_zero f s.rx⟩
  · show 0 < 50 * s.cfg.tPhase
    omega
  · show s.lines.sclk = true
    rw [idle]
  · show s.lines.rclk = true
    rw [idle]

/-- A command on an idle block keeps the invariants of sequencer, lines and receiver. -/
theorem ExecMove.txInv {i : Instr} {s t : State} (move : ExecMove i s t) (hT : 1 ≤ s.cfg.tPhase)
    (hi : s.tx.state = .idle) (ht : TxInv s) (hr : RxInv s) : TxInv t ∧ RxInv t := by
  cases move with
  | started => exact startTx_inv _ hT hi ht
  | raised => rw [raiseCmdError_eq]; exact ⟨ht, hr⟩
  | _ => exact ⟨ht, hr⟩

end Sys2Proof.Machine
end

section
/-! PROOFS of 10_state.md: every tick keeps the invariants, and the machine never stops. -/

namespace Sys2Proof.Machine

/-- What an accepted word does to CMD_ERR_CODE: nothing, or it records an error, or it is ERRCLR (R30). -/
theorem acceptWord_cmdErr {w : Word} {s u : State} (h : acceptWord w s = .next u) :
    u.cmdErr = s.cmdErr ∨ (∃ c, u.cmdErr = if s.cmdErr = 0 then cmdErrorCode c else s.cmdErr) ∨
      (u.cmdErr = 0 ∧ decode w = .ok .errclr) := by
  rcases acceptWord_cases h with ⟨i, hd, move⟩ | ⟨c, -, rfl⟩
  · cases move with
    | raised c => exact .inr (.inl ⟨c, by rw [raiseCmdError_eq]⟩)
    | cleared hi => exact .inr (.inr ⟨rfl, hi ▸ hd⟩)
    | _ => exact .inl rfl
  · exact .inr (.inl ⟨c, by rw [raiseCmdError_eq]⟩)

/-- An accepted word leaves a CMD_ERR_CODE that the block produces (R102). -/
theorem acceptWord_cmdErr_le {w : Word} {s u : State} (h : acceptWord w s = .next u) (hc : s.cmdErr ≤ 4) :
    u.cmdErr ≤ 4 := by
  rcases acceptWord_cmdErr h with hu | ⟨c, hu⟩ | ⟨hu, -⟩
  · rwa [hu]
  · rw [hu]
    split
    · exact (cmdErrorCode_range c).2
    · exact hc
  · rw [hu]
    decide

/-- An accepted word changes neither the configuration nor the lines nor the receiver (R31(c), R70). -/
theorem acceptWord_frame {w : Word} {s u : State} (h : acceptWord w s = .next u) :
    u.cfg = s.cfg ∧ u.lines = s.lines ∧ u.rx = s.rx := by
  obtain ⟨t, ht, frame⟩ := acceptWord_next w s
  obtain rfl : t = u := by simpa [ht] using h
  rw [frame]
  exact ⟨rfl, rfl, rfl⟩

/-- A step that answers a next state leaves a sound one, whatever it began from. -/
theorem step_sound {s t : State} (h : step s = .next t) : Sound t := by
  obtain ⟨hw, ⟨-, rfl⟩ | ⟨-, hc, ⟨-, rfl⟩ | ⟨-, u, hu, rfl⟩ | ⟨-, -, rfl⟩⟩⟩ := step_cases h
  · exact ⟨hw, by simp⟩
  · exact ⟨by simpa using hw, by simpa using hc⟩
  · obtain ⟨cfg, -, -⟩ := acceptWord_frame hu
    exact ⟨by simpa [cfg] using hw, by simpa using acceptWord_cmdErr_le hu hc⟩
  · exact ⟨hw, hc⟩

/-- A sound machine never stops (R100). -/
theorem step_next_of_sound {s : State} (hs : Sound s) : ∃ t, step s = .next t := by
  by_cases hr : s.port.rst = true
  · exact ⟨_, step_of_reset hs.1 hr⟩
  · rw [step_eq_runTick hs (by simpa using hr)]
    exact runTick_next s

/-- Settles O12: without reset the tick always completes, and what it records is a code of R102. -/
theorem soundMachineNeverStops : Obligations.SoundMachineNeverStops := by
  intro s hs
  obtain ⟨t, ht⟩ := step_next_of_sound hs
  exact ⟨t, ht, step_sound ht⟩

/-! ### The invariants -/

/-- The reset values have the invariants in every well-formed instance (R115), whatever the receiver holds. -/
theorem inv_resetFor {c : Config} (hw : c.wf = true) (rx : Receiver) (inputs : List PortInput) (n : Nat) :
    Inv (State.resetFor c rx inputs n) where
  cfg := hw
  tx := (txInv_idle rfl).mpr ⟨rfl, by show Lines.reset = ⟨(0 : Frame).getLsbD 0, true, true⟩; decide⟩
  rx := nofun
  enc := encInv_of_reset c
  cmd := by show (0 : BitVec 3) ≤ 4; decide

/-- An accepted word keeps what the invariants say of sequencer, lines, receiver and encoder. -/
theorem acceptWord_inv {w : Word} {s u : State} (h : acceptWord w s = .next u) (hi : s.tx.state = .idle) (inv : Inv s) :
    TxInv u ∧ RxInv u ∧ EncInv u.cfg u.enc := by
  obtain ⟨-, -, -, -, hT⟩ := wf_bounds inv.cfg
  obtain ⟨cfg, -, -⟩ := acceptWord_frame h
  rw [cfg]
  rcases acceptWord_cases h with ⟨i, -, move⟩ | ⟨c, -, rfl⟩
  · obtain ⟨tx, rx⟩ := move.txInv hT hi inv.tx inv.rx
    exact ⟨tx, rx, move.encInv inv.cfg inv.enc⟩
  · rw [raiseCmdError_eq]
    exact ⟨inv.tx, inv.rx, inv.enc⟩

/-- Settles O20: by the four ticks of R31; the transaction's tick by its events, the accepted word by its moves. -/
theorem stepKeepsTheInvariants : Obligations.StepKeepsTheInvariants := by
  intro s t inv h
  obtain ⟨hw, hc⟩ := step_sound h
  obtain ⟨-, ⟨-, rfl⟩ | ⟨-, -, ⟨hb, rfl⟩ | ⟨ha, u, hu, rfl⟩ | ⟨-, -, rfl⟩⟩⟩ := step_cases h
  case inl => exact inv_resetFor inv.cfg _ _ _
  case inr.inl =>
    obtain ⟨-, -, -, -, hT⟩ := wf_bounds inv.cfg
    obtain ⟨tx, rx⟩ := txTick_inv hT hb inv.tx inv.rx
    exact ⟨hw, tx, rx, by simpa using inv.enc, hc⟩
  case inr.inr.inl =>
    obtain ⟨-, hi, -, -⟩ := ha
    obtain ⟨tx, rx, enc⟩ := acceptWord_inv hu hi inv
    exact ⟨hw, tx, rx, enc, hc⟩
  case inr.inr.inr => exact ⟨hw, inv.tx, inv.rx, inv.enc, hc⟩

/-! ### Lines, CMD_ERR_CODE and RESP (R21, R30, R33) -/

/-- Settles O22: by the four ticks of R31, and the invariant of the lines between transactions. -/
theorem onlyTheSequencerAndResetWriteTheLines : Obligations.OnlyTheSequencerAndResetWriteTheLines := by
  refine ⟨fun s t h hr hi => ?_, fun s inv hi => ?_, fun s t h hr => ?_⟩
  · obtain ⟨-, ⟨hr', -⟩ | ⟨-, -, ⟨hb, -⟩ | ⟨-, u, hu, rfl⟩ | ⟨-, -, rfl⟩⟩⟩ := step_cases h
    · simp [hr] at hr'
    · simp [hi] at hb
    · obtain ⟨-, lines, rx⟩ := acceptWord_frame hu
      exact ⟨lines, rx⟩
    · exact ⟨rfl, rfl⟩
  · obtain ⟨-, idle⟩ := (txInv_idle hi).mp inv.tx
    simp [idle]
  · obtain ⟨-, ⟨-, rfl⟩ | ⟨hr', -⟩⟩ := step_cases h
    · exact ⟨rfl, rfl⟩
    · simp [hr] at hr'

/-- Settles O24: only a reset and an accepted word write CMD_ERR_CODE, and the word records an error only over 0. -/
theorem commandErrorIsSticky : Obligations.CommandErrorIsSticky := by
  intro s t h
  obtain ⟨-, ⟨hr, rfl⟩ | ⟨-, -, ⟨-, rfl⟩ | ⟨ha, u, hu, rfl⟩ | ⟨-, -, rfl⟩⟩⟩ := step_cases h
  case inl => exact ⟨fun _ => .inr ⟨rfl, .inl hr⟩, fun _ hne => absurd rfl hne⟩
  case inr.inl => exact ⟨fun _ => .inl (by simp), fun hz hne => absurd (by simpa using hz) hne⟩
  case inr.inr.inl =>
    refine ⟨fun hne => ?_, fun _ _ => ha⟩
    rcases acceptWord_cmdErr hu with hu | ⟨c, hu⟩ | ⟨hu, hd⟩
    · exact .inl hu
    · exact .inl (hu.trans (if_neg hne))
    · exact .inr ⟨hu, .inr ⟨ha, hd⟩⟩
  case inr.inr.inr => exact ⟨fun _ => .inl rfl, fun hz hne => absurd hz hne⟩

/-- RESP after an accepted word: only RD_MSG with an index inside MSGBUF writes it (R33, R89). -/
theorem acceptWord_resp {w : Word} {s u : State} (h : acceptWord w s = .next u) :
    u.resp = s.resp ∨ ∃ idx, decode w = .ok (.rdMsg idx) ∧ idx.toNat < s.cfg.msgMax := by
  rcases acceptWord_cases h with ⟨i, hd, move⟩ | ⟨c, -, rfl⟩
  · cases move with
    | read idx v hi inside => exact .inr ⟨idx, hi ▸ hd, inside⟩
    | raised c => exact .inl (by rw [raiseCmdError_eq])
    | _ => exact .inl rfl
  · exact .inl (by rw [raiseCmdError_eq])

/-- Settles O28: by the four ticks of R31. -/
theorem onlyRdMsgAndResetWriteResp : Obligations.OnlyRdMsgAndResetWriteResp := by
  intro s t h
  obtain ⟨-, ⟨hr, rfl⟩ | ⟨-, -, ⟨-, rfl⟩ | ⟨ha, u, hu, rfl⟩ | ⟨-, -, rfl⟩⟩⟩ := step_cases h
  · exact .inr (.inl ⟨hr, rfl⟩)
  · exact .inl (by simp)
  · rcases acceptWord_resp hu with hu | written
    · exact .inl hu
    · exact .inr (.inr ⟨ha, written⟩)
  · exact .inl rfl

/-! ### A tick that accepts a word (R31(c)) -/

/-- The end of an accepting tick, field by field (entries 4, 6 and 12). -/
theorem endTick_drawStall (u : State) :
    endTick (drawStall u) = { u with
      stallLeft := Config.stallTicks u.draws, inputs := u.inputs.tail, draws := u.draws + 1 } := rfl

/-- Settles O9: the tick is `exec` with the tick's own end around it, and no command touches port or draws. -/
theorem stepRunsTheDecodedCommand : Obligations.StepRunsTheDecodedCommand := by
  intro s i hs ha hd
  obtain ⟨t, ht, move⟩ := exec_move i s
  refine ⟨t, ht, ?_⟩
  rw [step_of_accepts hs ha, acceptWord, hd]
  simp only [ht, endAccept, endTick_drawStall]
  rw [move.frame]

/-- Settles O10: the tick is `raiseCmdError` with the tick's own end around it. -/
theorem stepRecordsTheErrorOfAWord : Obligations.StepRecordsTheErrorOfAWord := by
  intro s c hs ha hd
  rw [step_of_accepts hs ha, acceptWord, hd]
  simp only [endAccept, endTick_drawStall, raiseCmdError_eq]

end Sys2Proof.Machine
end

section
/-! PROOFS of 10_state.md: the port while the block is not ready (R31, R120), and the end of a stall (R23). -/

namespace Sys2Proof.Machine

/-- BUSY, spelled out (R23). -/
theorem busy_iff (s : State) : s.busy = true ↔ s.tx.state = .busy ∨ 0 < s.stallLeft := by
  simp [State.busy, State.stall, Nat.pos_iff_ne_zero]

theorem cmdReady_eq_false_iff (s : State) : s.cmdReady = false ↔ s.tx.state = .busy ∨ 0 < s.stallLeft := by
  rw [← busy_iff, State.cmdReady, Bool.not_eq_false']

/-- The sequencer does not look at the host's inputs. -/
theorem txTick_inputs_comm (l : List PortInput) (s : State) :
    txTick { s with inputs := l } = { txTick s with inputs := l } := by
  have event : txEvent { s with inputs := l } = { txEvent s with inputs := l } := by
    unfold txEvent
    dsimp only
    split
    · cases lineEvent s.tx.frame (s.tx.cnt / s.cfg.tPhase) <;> rfl
    · rfl
  simp only [txTick, event]

/-- The tick of a busy block, whatever is on the port (R31(b)). -/
theorem runTick_of_busy {s : State} (hb : s.tx.state = .busy) : runTick s = .next (endTick (stallTick (txTick s))) := by
  simp only [runTick, hb]

/-- The tick of a stalled block between transactions, whatever is on the port (R31(d)). -/
theorem runTick_of_stalled {s : State} (hi : s.tx.state = .idle) (hs : 0 < s.stallLeft) :
    runTick s = .next (endTick (stallTick s)) := by
  simp only [runTick, hi]
  exact if_neg fun h => absurd h.1 (Nat.ne_of_gt hs)

/-- A block that is not ready runs the same tick whatever sample stands on the port (R120). -/
theorem runTick_of_not_ready {s : State} (hn : s.cmdReady = false) (p : PortInput) :
    runTick { s with inputs := p :: s.inputs.tail } = runTick s := by
  cases hs : s.tx.state with
  | idle =>
    have stalled : 0 < s.stallLeft := ((cmdReady_eq_false_iff s).mp hn).resolve_left (by simp [hs])
    have other := runTick_of_stalled (s := { s with inputs := p :: s.inputs.tail }) hs stalled
    rw [other, runTick_of_stalled hs stalled]
    rfl
  | busy =>
    have other := runTick_of_busy (s := { s with inputs := p :: s.inputs.tail }) hs
    rw [other, runTick_of_busy hs, txTick_inputs_comm]
    simp [endTick, stallTick]

/-- Settles O16: beside reset only `runTick` looks at the port, and a busy or stalled block never reads it. -/
theorem portIsNotSeenWhileNotReady : Obligations.PortIsNotSeenWhileNotReady := by
  intro s v w hr hn
  simp only [step, tick, runTick_of_not_ready hn, hr]
  rfl

/-! ### Quiet runs -/

/-- A property of the coming `n + 1` samples, and of the samples the host does not drive, holds on the port. -/
theorem port_of_forall_take {P : PortInput → Prop} {s : State} {n : Nat} (hd : P idlePort)
    (h : ∀ p ∈ s.inputs.take (n + 1), P p) : P s.port := by
  unfold State.port
  cases hl : s.inputs with
  | nil => exact hd
  | cons p l => exact h p (by simp [hl])

/-- What holds of the coming `n + 1` samples holds of the `n` after the first. -/
theorem forall_take_tail {P : PortInput → Prop} {l : List PortInput} {n : Nat} (h : ∀ p ∈ l.take (n + 1), P p) :
    ∀ p ∈ l.tail.take n, P p := by
  cases l with
  | nil => simp
  | cons q l => exact fun p hp => h p (List.mem_cons_of_mem q hp)

/-- A quiet run (R31(d), R113): with no reset and no transaction, and with a stall or no valid word on every tick, only the stall
runs out. -/
theorem run_quiet (n : Nat) {s : State} (hs : Sound s) (hi : s.tx.state = .idle) (hr : NoReset n s)
    (hq : n ≤ s.stallLeft ∨ ∀ p ∈ s.inputs.take n, p.valid = false) :
    run n s = .next { s with stallLeft := s.stallLeft - n, inputs := s.inputs.drop n, draws := s.draws + n } := by
  induction n generalizing s with
  | zero => rfl
  | succ n ih =>
    have quiet : ¬Accepts s := by
      rintro ⟨-, -, stall, valid⟩
      rcases hq with hq | hq
      · omega
      · have := port_of_forall_take (P := fun p => p.valid = false) rfl hq
        simp [valid] at this
    have first := step_of_quiet hs (port_of_forall_take (P := fun p => p.rst = false) rfl hr) hi quiet
    have later : n ≤ s.stallLeft - 1 ∨ ∀ p ∈ s.inputs.tail.take n, p.valid = false :=
      hq.imp (by omega) forall_take_tail
    rw [run_succ first, ih (s := endTick (stallTick s)) hs hi (forall_take_tail hr) later]
    simp [Nat.sub_sub, Nat.add_comm 1 n, Nat.add_assoc]

/-- Settles O19: the stall is a quiet run of its own length. -/
theorem everyStallEnds : Obligations.EveryStallEnds := by
  intro s hs hi hr
  refine ⟨_, run_quiet s.stallLeft hs hi hr (.inl (Nat.le_refl _)), ?_, by simp⟩
  simp [State.cmdReady, State.busy, State.stall, hi]

end Sys2Proof.Machine
end

section
/-! PROOFS of 10_state.md: STATUS and the ports (R20, R32 to R34). -/

namespace Sys2Proof.Machine

/-- Bit 0 under a string of bits. -/
theorem getLsbD_zero_append_ofBool {n : Nat} (x : BitVec n) (b : Bool) : (x ++ BitVec.ofBool b).getLsbD 0 = b := by
  rw [BitVec.getLsbD_append, if_pos Nat.zero_lt_one, BitVec.getLsbD_ofBool]
  simp

theorem status_busy (s : State) : s.status.getLsbD 0 = s.busy := getLsbD_zero_append_ofBool _ _

/-- STATUS above BUSY. -/
theorem status_above_busy (s : State) :
    s.status.extractLsb' 1 15 = BitVec.ofNat 8 s.enc.msgLen ++ s.cmdErr ++ s.enc.err.code ++ s.enc.mode.code :=
  BitVec.extractLsb'_append_eq_left

theorem status_mode (s : State) : s.status.extractLsb' 1 2 = s.enc.mode.code := by
  rw [State.status, BitVec.extractLsb'_append_eq_of_le (Nat.le_refl 1)]
  exact BitVec.extractLsb'_append_eq_right

theorem status_err (s : State) : s.status.extractLsb' 3 2 = s.enc.err.code := by
  rw [State.status, BitVec.extractLsb'_append_eq_of_le (by decide), BitVec.extractLsb'_append_eq_of_le (by decide)]
  exact BitVec.extractLsb'_append_eq_right

theorem status_cmdErr (s : State) : s.status.extractLsb' 5 3 = s.cmdErr := by
  rw [State.status, BitVec.extractLsb'_append_eq_of_le (by decide), BitVec.extractLsb'_append_eq_of_le (by decide),
    BitVec.extractLsb'_append_eq_of_le (by decide)]
  exact BitVec.extractLsb'_append_eq_right

theorem status_msgLen (s : State) : s.status.extractLsb' 8 8 = BitVec.ofNat 8 s.enc.msgLen := by
  rw [State.status, BitVec.extractLsb'_append_eq_of_le (by decide), BitVec.extractLsb'_append_eq_of_le (by decide),
    BitVec.extractLsb'_append_eq_of_le (by decide)]
  exact BitVec.extractLsb'_append_eq_left

/-- Settles O26: STATUS is five fields side by side, each read back as it was put in. -/
theorem statusShowsTheState : Obligations.StatusShowsTheState := by
  refine ⟨fun s => ⟨?_, ?_, ?_, status_cmdErr s, fun hlen => ?_⟩, by decide⟩
  · rw [status_busy, busy_iff]
  · rw [status_mode]
    cases s.enc.mode <;> rfl
  · rw [status_err]
    cases s.enc.err <;> rfl
  · rw [status_msgLen, BitVec.toNat_ofNat, Nat.mod_eq_of_lt (by omega)]

/-- Without a stall the ports show STATUS and RESP (R34). -/
theorem ports_of_no_stall {s : State} (h : s.stallLeft = 0) : s.statusPort = s.status ∧ s.respPort = s.resp := by
  simp [State.statusPort, State.respPort, State.stall, h]

/-- Bit 0 of the status port is BUSY, in a stall too (R121). -/
theorem statusPort_busy (s : State) : s.statusPort.getLsbD 0 = s.busy := by
  unfold State.statusPort
  split
  · exact getLsbD_zero_append_ofBool _ _
  · exact status_busy s

/-- A tick of a transaction changes nothing that STATUS[15:1] or RESP shows (R70). -/
theorem step_of_ticks_shown {s t : State} (ht : Ticks s) (h : step s = .next t) :
    t.enc = s.enc ∧ t.cmdErr = s.cmdErr ∧ t.resp = s.resp ∧ t.stallLeft = s.stallLeft - 1 := by
  obtain ⟨hr, hb⟩ := ht
  obtain ⟨-, ⟨hr', -⟩ | ⟨-, -, ⟨-, rfl⟩ | ⟨⟨-, hi, -⟩, -⟩ | ⟨hi, -⟩⟩⟩ := step_cases h
  · simp [hr] at hr'
  · simp
  · simp [hb] at hi
  · simp [hb] at hi

/-- Settles O27: the ports show STATUS and RESP, which a tick of a transaction leaves alone but for BUSY. -/
theorem portsShowStatusAndResponse : Obligations.PortsShowStatusAndResponse := by
  refine fun s => ⟨ports_of_no_stall, statusPort_busy s, rfl, ⟨rfl, rfl, rfl⟩, fun t ht hs h => ?_⟩
  obtain ⟨enc, cmdErr, resp, stall⟩ := step_of_ticks_shown ht h
  obtain ⟨status, response⟩ := ports_of_no_stall hs
  obtain ⟨status', response'⟩ := ports_of_no_stall (show t.stallLeft = 0 by rw [stall, hs])
  rw [status, status', response, response', status_above_busy, status_above_busy, enc, cmdErr, resp]
  exact ⟨rfl, rfl⟩

end Sys2Proof.Machine
end

section
/-! PROOFS of 20_memory.md: the encoder's state is the fold of the accepted words and resets (R43, R46, R91). -/

namespace Sys2Proof.Machine

/-! ### What a word does to the encoder -/

@[simp] theorem raiseCmdError_enc (c : CmdError) (s : State) : (raiseCmdError c s).enc = s.enc := by
  rw [raiseCmdError_eq]

/-- ENC_CHAR is `encStep` in every mode, which does nothing where the command does nothing to the encoder (R80, R87). -/
theorem execEncChar_enc {c : Byte} {s t : State} (h : execEncChar c s = .next t) : t.enc = encStep s.cfg c s.enc := by
  unfold execEncChar at h
  split at h
  case h_1 => cases h; rfl
  all_goals
    rename_i hm
    rw [encStep_of_not_opened (by simp [hm])]
    cases h
    simp

/-- ENC_END is `encEnd` in every mode, which does nothing where the command does nothing to the encoder (R88). -/
theorem execEncEnd_enc {s t : State} (h : execEncEnd s = .next t) : t.enc = encEnd s.cfg s.enc := by
  unfold execEncEnd at h
  split at h
  case h_1 => cases h; rfl
  all_goals
    rename_i hm
    rw [encEnd_of_not_opened (by simp [hm])]
    cases h
    simp

/-- RD_MSG leaves the encoder alone (R89). -/
theorem execRdMsg_enc {idx : Byte} {s t : State} (h : execRdMsg idx s = .next t) : t.enc = s.enc := by
  unfold execRdMsg at h
  split at h
  case isTrue => cases h; simp
  case isFalse => split at h <;> (cases h; rfl)

/-- An accepted word does to the encoder what `encOfWord` says: only the four encoder commands do anything to it (R91). -/
theorem acceptWord_enc {w : Word} {s u : State} (h : acceptWord w s = .next u) : u.enc = encOfWord s.cfg w s.enc := by
  unfold acceptWord at h
  unfold encOfWord
  cases hd : decode w with
  | error c => rw [hd] at h; cases h; simp
  | ok i =>
    rw [hd] at h
    cases i with
    | encChar c => exact execEncChar_enc h
    | encEnd => exact execEncEnd_enc h
    | rdMsg idx => exact execRdMsg_enc h
    | encBegin | encBeginA | nop | tx | clr | errclr => cases h; rfl

/-! ### What a tick does to the encoder -/

theorem encEvent_of_reset {s : State} (hr : s.port.rst = true) : encEvent s = .reset := if_pos hr

theorem encEvent_of_accepts {s : State} (ha : Accepts s) : encEvent s = .word s.port.word := by
  obtain ⟨hr, ready⟩ := ha
  simp [encEvent, hr, ready]

theorem encEvent_of_not_accepts {s : State} (hr : s.port.rst = false) (ha : ¬Accepts s) : encEvent s = .nothing := by
  unfold encEvent
  rw [hr, if_neg Bool.false_ne_true, if_neg fun ready => ha ⟨hr, ready⟩]

/-- A tick of a transaction accepts no word (R31(b)). -/
theorem not_accepts_of_busy {s : State} (hb : s.tx.state = .busy) : ¬Accepts s := by
  rintro ⟨-, hi, -⟩
  simp [hb] at hi

/-- No tick changes the configuration (R118). -/
theorem step_cfg {s t : State} (h : step s = .next t) : t.cfg = s.cfg := by
  obtain ⟨-, ⟨-, rfl⟩ | ⟨-, -, ⟨-, rfl⟩ | ⟨-, u, hu, rfl⟩ | ⟨-, -, rfl⟩⟩⟩ := step_cases h
  · rfl
  · simp
  · obtain ⟨cfg, -, -⟩ := acceptWord_frame hu
    exact cfg
  · rfl

/-- A tick does to the encoder what its event does (R31, R43). -/
theorem step_enc {s t : State} (h : step s = .next t) : t.enc = encOfEvent s.cfg s.enc (encEvent s) := by
  obtain ⟨-, ⟨hr, rfl⟩ | ⟨hr, -, ⟨hb, rfl⟩ | ⟨ha, u, hu, rfl⟩ | ⟨-, ha, rfl⟩⟩⟩ := step_cases h
  · rw [encEvent_of_reset hr]
    rfl
  · rw [encEvent_of_not_accepts hr (not_accepts_of_busy hb)]
    simp [encOfEvent]
  · rw [encEvent_of_accepts ha, endTick_enc, drawStall_enc]
    exact acceptWord_enc hu
  · rw [encEvent_of_not_accepts hr ha]
    rfl

/-! ### Runs -/

theorem encEvents_succ {s u : State} (h : step s = .next u) (n : Nat) :
    encEvents (n + 1) s = encEvent s :: encEvents n u := by
  rw [encEvents, h, listNext_next]

/-- Settles O17, by induction on the ticks: each one does to the encoder what its event does, and keeps the configuration. -/
theorem encoderFollowsTheAcceptedWords : Obligations.EncoderFollowsTheAcceptedWords := by
  intro n
  induction n with
  | zero =>
    intro s t h
    cases h
    rfl
  | succ n ih =>
    intro s t h
    obtain ⟨u, hu, later⟩ := run_succ_next h
    rw [encEvents_succ hu, List.foldl_cons, ← step_enc hu, ← step_cfg hu]
    exact ih u t later

end Sys2Proof.Machine
end

section
/-! PROOFS of 30_encoding.md: the decode table (R53), the round trip, and the opcode map (R52, R60). -/

namespace Sys2Proof

/-! ### The decode table, row by row (R53) -/

/-- Bit 7 of a byte by its value. -/
theorem getLsbD_seven_iff (b : Byte) : b.getLsbD 7 = true ↔ 0x80 ≤ b.toNat := by
  have h : b.getLsbD 7 = decide (0x80 ≤ b.toNat) := by
    rw [← b.msb_eq_decide, BitVec.msb_eq_getLsbD_last]
  rw [h, decide_eq_true_iff]

/-- A check of reserved fields, by when it fails (R54). -/
theorem checkReserved_eq {ok : Bool} {p : Prop} [Decidable p] (h : ok = true ↔ ¬p) (i : Instr) :
    checkReserved ok i = if p then .error .reservedNz else .ok i := by
  by_cases hp : p <;> simp [checkReserved, h, hp]

theorem checkReserved_a (a : Byte) (i : Instr) :
    checkReserved (a == 0) i = if a ≠ 0 then .error .reservedNz else .ok i := checkReserved_eq (by simp) i

theorem checkReserved_ab (a b : Byte) (i : Instr) :
    checkReserved (a == 0 && b == 0) i = if a ≠ 0 ∨ b ≠ 0 then .error .reservedNz else .ok i :=
  checkReserved_eq (by simp) i

theorem decode_nop_row (a b : Byte) :
    decode (mkWord 0x00 a b) = if a ≠ 0 ∨ b ≠ 0 then .error .reservedNz else .ok .nop := by
  rw [← checkReserved_ab]; simp [decode]

theorem decode_tx_row (a b : Byte) : decode (mkWord 0x01 a b) = .ok (.tx a b) := by
  simp [decode]

theorem decode_clr_row (a b : Byte) :
    decode (mkWord 0x02 a b) = if a ≠ 0 then .error .reservedNz else .ok (.clr b) := by
  rw [← checkReserved_a]; simp [decode]

theorem decode_encBegin_row (a b : Byte) :
    decode (mkWord 0x10 a b) = if a ≠ 0 ∨ 0x80 ≤ b.toNat then .error .reservedNz else .ok (.encBegin b) := by
  rw [← checkReserved_eq (ok := a == 0 && !b.getLsbD 7) (by simp [← getLsbD_seven_iff])]; simp [decode]

theorem decode_encChar_row (a b : Byte) :
    decode (mkWord 0x11 a b) = if a ≠ 0 then .error .reservedNz else .ok (.encChar b) := by
  rw [← checkReserved_a]; simp [decode]

theorem decode_encEnd_row (a b : Byte) :
    decode (mkWord 0x12 a b) = if a ≠ 0 ∨ b ≠ 0 then .error .reservedNz else .ok .encEnd := by
  rw [← checkReserved_ab]; simp [decode]

theorem decode_encBeginA_row (a b : Byte) :
    decode (mkWord 0x13 a b) = if a ≠ 0 ∨ b ≠ 0 then .error .reservedNz else .ok .encBeginA := by
  rw [← checkReserved_ab]; simp [decode]

theorem decode_rdMsg_row (a b : Byte) :
    decode (mkWord 0x20 a b) = if a ≠ 0 then .error .reservedNz else .ok (.rdMsg b) := by
  rw [← checkReserved_a]; simp [decode]

theorem decode_errclr_row (a b : Byte) :
    decode (mkWord 0x30 a b) = if a ≠ 0 ∨ b ≠ 0 then .error .reservedNz else .ok .errclr := by
  rw [← checkReserved_ab]; simp [decode]

/-- The OPs of the opcode map (R52). -/
abbrev assignedOps : List Byte := [0x00, 0x01, 0x02, 0x10, 0x11, 0x12, 0x13, 0x20, 0x30]

theorem decode_unassigned {op : Byte} (h : op ∉ assignedOps) (a b : Byte) :
    decode (mkWord op a b) = .error .illegalOp := by
  simp only [assignedOps, List.mem_cons, List.not_mem_nil, or_false, BitVec.ofNat_eq_ofNat, not_or] at h
  simp [decode, h]

/-! ### What decode can answer -/

/-- A decoded command is well-formed and has the word as its own; the only other answers are the two decode errors (R53, R60). -/
def DecodesExactly (w : Word) : Prop :=
  (∃ i, decode w = .ok i ∧ i.wf = true ∧ encode i = w) ∨ decode w = .error .illegalOp ∨ decode w = .error .reservedNz

theorem decodesExactly_of_row {w : Word} {p : Prop} [Decidable p] {i : Instr}
    (row : decode w = if p then .error .reservedNz else .ok i) (h : ¬p → i.wf = true ∧ encode i = w) : DecodesExactly w := by
  by_cases hp : p
  · exact .inr (.inr (by rw [row, if_pos hp]))
  · exact .inl ⟨i, by rw [row, if_neg hp], h hp⟩

theorem decodesExactly_mkWord (op a b : Byte) : DecodesExactly (mkWord op a b) := by
  by_cases hop : op ∈ assignedOps
  case neg => exact .inr (.inl (decode_unassigned hop a b))
  simp only [assignedOps, List.mem_cons, List.not_mem_nil, or_false] at hop
  rcases hop with rfl | rfl | rfl | rfl | rfl | rfl | rfl | rfl | rfl
  · exact decodesExactly_of_row (decode_nop_row a b) (by simp +contextual [Instr.wf, encode])
  · exact .inl ⟨_, decode_tx_row a b, rfl, rfl⟩
  · exact decodesExactly_of_row (decode_clr_row a b) (by simp +contextual [Instr.wf, encode])
  · exact decodesExactly_of_row (decode_encBegin_row a b)
      (by simp +contextual [Instr.wf, encode, ← getLsbD_seven_iff])
  · exact decodesExactly_of_row (decode_encChar_row a b) (by simp +contextual [Instr.wf, encode])
  · exact decodesExactly_of_row (decode_encEnd_row a b) (by simp +contextual [Instr.wf, encode])
  · exact decodesExactly_of_row (decode_encBeginA_row a b) (by simp +contextual [Instr.wf, encode])
  · exact decodesExactly_of_row (decode_rdMsg_row a b) (by simp +contextual [Instr.wf, encode])
  · exact decodesExactly_of_row (decode_errclr_row a b) (by simp +contextual [Instr.wf, encode])

theorem decodesExactly (w : Word) : DecodesExactly w := by
  rw [← mkWord_fields w]
  exact decodesExactly_mkWord _ _ _

theorem decode_encode {i : Instr} (h : i.wf = true) : decode (encode i) = .ok i := by
  cases i with
  | nop => exact decode_nop_row 0 0
  | tx seg dig => exact decode_tx_row seg dig
  | clr dig => exact decode_clr_row 0 dig
  | encBegin b =>
    have hb : ¬0x80 ≤ b.toNat := by simpa [Instr.wf, ← getLsbD_seven_iff] using h
    rw [encode, decode_encBegin_row, if_neg (by simp [hb])]
  | encChar ch => exact decode_encChar_row 0 ch
  | encEnd => exact decode_encEnd_row 0 0
  | encBeginA => exact decode_encBeginA_row 0 0
  | rdMsg idx => exact decode_rdMsg_row 0 idx
  | errclr => exact decode_errclr_row 0 0

theorem wf_and_encode_of_decode {w : Word} {i : Instr} (h : decode w = .ok i) : i.wf = true ∧ encode i = w := by
  rcases decodesExactly w with ⟨j, hj, exact⟩ | he | he
  · obtain rfl : j = i := by simpa [hj] using h
    exact exact
  all_goals simp [he] at h

/-- Settles O5: the rows of the decode table give the way back, and `DecodesExactly` the way there. -/
theorem decodeInvertsEncode : Obligations.DecodeInvertsEncode :=
  ⟨fun _ => decode_encode, fun _ _ => wf_and_encode_of_decode⟩

end Sys2Proof

namespace Sys2Proof.Machine

/-- A word that raises a CmdError at decode only records it (R53, R101). -/
theorem acceptWord_of_error {w : Word} {c : CmdError} (h : decode w = .error c) (s : State) :
    acceptWord w s = .next { s with cmdErr := if s.cmdErr = 0 then cmdErrorCode c else s.cmdErr } := by
  rw [← raiseCmdError_eq, acceptWord, h]

/-- An accepted word that is a command performs it (R31(c)). -/
theorem acceptWord_of_ok {w : Word} {i : Instr} (h : decode w = .ok i) (s : State) : acceptWord w s = exec i s := by
  rw [acceptWord, h]

theorem padCount_of_lt {b : Byte} (h : b.toNat < 0x80) : padCount b = b.toNat := by
  rw [padCount, BitVec.extractLsb'_toNat, Nat.shiftRight_zero, Nat.mod_eq_of_lt h]

/-- Settles O1: the rows of the decode table, and the frame of a decode error. -/
theorem decodeFollowsTheDecodeTable : Obligations.DecodeFollowsTheDecodeTable := by
  refine ⟨fun a b => ?_, fun w c s h => ⟨_, acceptWord_of_error h s, rfl⟩⟩
  exact ⟨decode_nop_row a b, decode_tx_row a b, decode_clr_row a b, decode_encBegin_row a b, padCount_of_lt,
    decode_encChar_row a b, decode_encEnd_row a b, decode_encBeginA_row a b, decode_rdMsg_row a b, decode_errclr_row a b,
    fun op hop => decode_unassigned hop a b⟩

/-- Settles O2: the unassigned OPs by their values, and a word of one is a decode error. -/
theorem illegalOpcodesOnlyRecordIllegalOp : Obligations.IllegalOpcodesOnlyRecordIllegalOp := by
  refine ⟨fun op => ?_, fun op a b s hop => acceptWord_of_error (decode_unassigned hop a b) s⟩
  have := op.isLt
  simp only [List.mem_cons, List.not_mem_nil, or_false, BitVec.ofNat_eq_ofNat, ← BitVec.toNat_inj, BitVec.toNat_ofNat]
  omega

/-- Settles O3: each reserved field fails in its row of the decode table. -/
theorem reservedFieldsOnlyRecordReservedNz : Obligations.ReservedFieldsOnlyRecordReservedNz := by
  intro op a b s h
  have row : decode (mkWord op a b) = .error .reservedNz := by
    simp only [List.mem_cons, List.not_mem_nil, or_false] at h
    rcases h with ⟨hop, ha⟩ | ⟨hop, hb⟩ | ⟨rfl, hb⟩
    · rcases hop with rfl | rfl | rfl | rfl | rfl | rfl | rfl | rfl
      · rw [decode_nop_row, if_pos (.inl ha)]
      · rw [decode_clr_row, if_pos ha]
      · rw [decode_encBegin_row, if_pos (.inl ha)]
      · rw [decode_encChar_row, if_pos ha]
      · rw [decode_encEnd_row, if_pos (.inl ha)]
      · rw [decode_encBeginA_row, if_pos (.inl ha)]
      · rw [decode_rdMsg_row, if_pos ha]
      · rw [decode_errclr_row, if_pos (.inl ha)]
    · rcases hop with rfl | rfl | rfl | rfl
      · rw [decode_nop_row, if_pos (.inr hb)]
      · rw [decode_encEnd_row, if_pos (.inr hb)]
      · rw [decode_encBeginA_row, if_pos (.inr hb)]
      · rw [decode_errclr_row, if_pos (.inr hb)]
    · rw [decode_encBegin_row, if_pos (.inr ((getLsbD_seven_iff b).mp hb))]
  exact acceptWord_of_error row s

/-- Settles O6, by running the decoder on the words. -/
theorem writtenWordsDecode : Obligations.WrittenWordsDecode := by
  unfold Obligations.WrittenWordsDecode
  decide

end Sys2Proof.Machine
end

section
/-! PROOFS of 30_encoding.md: the rows of the opcode map hold the words of their commands and no others (R52, R60). -/

namespace Sys2Proof

/-- The row test for a word of three fields, field by field. -/
theorem holds_mkWord_iff (name : String) (op a b m n k p q t : Byte) :
    (OpRow.mk name (mkWord m n k) (mkWord p q t)).holds (mkWord op a b) = true ↔ op &&& m = p ∧ a &&& n = q ∧ b &&& k = t := by
  refine ⟨fun h => mkWord_injective ?_, Laws.holds_mkWord name op a b m n k p q t⟩
  simpa [OpRow.holds, Laws.mkWord_and] using h

/-- The opcode map with its masks and patterns by their fields: OP always counts, A as a whole or not at all. -/
theorem opcodeMap_fields : opcodeMap =
    [⟨"NOP",        mkWord 0xFF 0xFF 0xFF, mkWord 0x00 0 0⟩,
     ⟨"TX",         mkWord 0xFF 0x00 0x00, mkWord 0x01 0 0⟩,
     ⟨"CLR",        mkWord 0xFF 0xFF 0x00, mkWord 0x02 0 0⟩,
     ⟨"ENC_BEGIN",  mkWord 0xFF 0xFF 0x80, mkWord 0x10 0 0⟩,
     ⟨"ENC_CHAR",   mkWord 0xFF 0xFF 0x00, mkWord 0x11 0 0⟩,
     ⟨"ENC_END",    mkWord 0xFF 0xFF 0xFF, mkWord 0x12 0 0⟩,
     ⟨"ENC_BEGINA", mkWord 0xFF 0xFF 0xFF, mkWord 0x13 0 0⟩,
     ⟨"RD_MSG",     mkWord 0xFF 0xFF 0x00, mkWord 0x20 0 0⟩,
     ⟨"ERRCLR",     mkWord 0xFF 0xFF 0xFF, mkWord 0x30 0 0⟩] := by decide

theorem and_full_iff (a p : Byte) : a &&& 0xFF = p ↔ a = p := by
  rw [show (0xFF : Byte) = BitVec.allOnes 8 by decide, BitVec.and_allOnes]

/-- Every row takes in the whole of OP, so it fixes the OP of its words (R52). -/
theorem opField_of_holds {r : OpRow} (hr : r ∈ opcodeMap) {w : Word} (h : r.holds w = true) : opField w = opField r.pattern := by
  have full : ∀ r ∈ opcodeMap, opField r.mask = 0xFF := by decide
  have masked : w &&& r.mask = r.pattern := by simpa [OpRow.holds] using h
  calc opField w = opField w &&& opField r.mask := by rw [full r hr, (and_full_iff _ _).mpr rfl]
    _ = opField (w &&& r.mask) := BitVec.extractLsb'_and.symm
    _ = opField r.pattern := by rw [masked]

/-- Two rows share no word, since their OPs differ (R60). -/
theorem opcodeMap_disjoint : opcodeMap.Pairwise fun r r' => ∀ w, ¬(r.holds w = true ∧ r'.holds w = true) := by
  have differ : opcodeMap.Pairwise fun r r' => opField r.pattern ≠ opField r'.pattern := by decide
  exact differ.imp_of_mem fun hr hr' hne w ⟨h, h'⟩ => hne (by rw [← opField_of_holds hr h, opField_of_holds hr' h'])

/-- A word in a row is the word of a command of that row. -/
theorem exists_encode_of_holds {r : OpRow} (hr : r ∈ opcodeMap) {w : Word} (h : r.holds w = true) :
    ∃ i : Instr, i.wf = true ∧ i.mnemonic = r.mnemonic ∧ encode i = w := by
  rw [← mkWord_fields w] at h ⊢
  generalize opField w = op, aField w = a, bField w = b at h ⊢
  simp only [opcodeMap_fields, List.mem_cons, List.not_mem_nil, or_false] at hr
  rcases hr with rfl | rfl | rfl | rfl | rfl | rfl | rfl | rfl | rfl
  all_goals
    simp only [holds_mkWord_iff, and_full_iff] at h
    obtain ⟨rfl, ha, hb⟩ := h
  · subst ha hb; exact ⟨.nop, rfl, rfl, rfl⟩
  · exact ⟨.tx a b, rfl, rfl, rfl⟩
  · subst ha; exact ⟨.clr b, rfl, rfl, rfl⟩
  · subst ha; exact ⟨.encBegin b, (by revert b; decide), rfl, rfl⟩
  · subst ha; exact ⟨.encChar b, rfl, rfl, rfl⟩
  · subst ha hb; exact ⟨.encEnd, rfl, rfl, rfl⟩
  · subst ha hb; exact ⟨.encBeginA, rfl, rfl, rfl⟩
  · subst ha; exact ⟨.rdMsg b, rfl, rfl, rfl⟩
  · subst ha hb; exact ⟨.errclr, rfl, rfl, rfl⟩

/-- The word of a command lies in its row, for every command at once. -/
theorem encodedInItsRow (i : Instr) : Laws.EncodedInItsRow.Statement i := by
  cases i with
  | nop => exact Laws.EncodedInItsRow.nop
  | tx seg dig => exact Laws.EncodedInItsRow.tx seg dig
  | clr dig => exact Laws.EncodedInItsRow.clr dig
  | encBegin b => exact Laws.EncodedInItsRow.encBegin b
  | encChar ch => exact Laws.EncodedInItsRow.encChar ch
  | encEnd => exact Laws.EncodedInItsRow.encEnd
  | encBeginA => exact Laws.EncodedInItsRow.encBeginA
  | rdMsg idx => exact Laws.EncodedInItsRow.rdMsg idx
  | errclr => exact Laws.EncodedInItsRow.errclr

/-- A row holds exactly the words that decode to a command of its name (R52). -/
theorem holds_iff_decode {r : OpRow} (hr : r ∈ opcodeMap) (w : Word) :
    r.holds w = true ↔ ∃ i, decode w = .ok i ∧ i.mnemonic = r.mnemonic := by
  constructor
  · intro h
    obtain ⟨i, wf, name, rfl⟩ := exists_encode_of_holds hr h
    exact ⟨i, decode_encode wf, name⟩
  · rintro ⟨i, hd, name⟩
    obtain ⟨wf, rfl⟩ := wf_and_encode_of_decode hd
    exact encodedInItsRow i wf r hr name.symm

theorem encode_injective {i j : Instr} (hi : i.wf = true) (hj : j.wf = true) (h : encode i = encode j) : i = j := by
  have : Except.ok i = Except.ok j (ε := CmdError) := by rw [← decode_encode hi, h, decode_encode hj]
  injection this

/-- Settles O4: what decode can answer, the rows of the opcode map, and the round trip. -/
theorem decodeIsTotalAndUnambiguous : Obligations.DecodeIsTotalAndUnambiguous := by
  refine ⟨fun w => ?_, opcodeMap_disjoint, fun w r hr => holds_iff_decode hr w, fun i j => encode_injective⟩
  exact (decodesExactly w).imp_left fun ⟨i, hd, wf, _⟩ => ⟨i, hd, wf⟩

end Sys2Proof
end

section
/-! PROOFS of 30_encoding.md: the words of an assembly line (R57, R58). -/

namespace Sys2Proof.Machine

/-- The value of a word from those of its fields (R49). -/
theorem mkWord_toNat (op a b : Byte) : (mkWord op a b).toNat = 65536 * op.toNat + 256 * a.toNat + b.toNat := by
  rw [mkWord, BitVec.toNat_append, BitVec.toNat_append, ← Nat.shiftLeft_add_eq_or_of_lt b.isLt,
    ← Nat.shiftLeft_add_eq_or_of_lt a.isLt, Nat.shiftLeft_eq, Nat.shiftLeft_eq]
  omega

/-- The word of an OP and two operands written as numbers. -/
theorem mkWord_ofNat (op : Byte) {m n : Nat} (hm : m ≤ 255) (hn : n ≤ 255) :
    mkWord op (BitVec.ofNat 8 m) (BitVec.ofNat 8 n) = BitVec.ofNat 24 (65536 * op.toNat + 256 * m + n) := by
  have := op.isLt
  apply BitVec.eq_of_toNat_eq
  rw [mkWord_toNat, BitVec.toNat_ofNat, BitVec.toNat_ofNat, BitVec.toNat_ofNat]
  omega

theorem mkWord_zero_ofNat (op : Byte) {n : Nat} (hn : n ≤ 255) :
    mkWord op 0 (BitVec.ofNat 8 n) = BitVec.ofNat 24 (65536 * op.toNat + n) := mkWord_ofNat op (Nat.zero_le _) hn

theorem assembleWords_tx (m n : Nat) : assembleWords (.tx m n) =
    if m ≤ 255 ∧ n ≤ 255 then some [BitVec.ofNat 24 (0x010000 + 256 * m + n)] else none := by
  by_cases hm : m ≤ 255
  case neg => simp [assembleWords, assemble, asmByte, hm]
  by_cases hn : n ≤ 255
  case neg => simp [assembleWords, assemble, asmByte, hm, hn]
  simpa [assembleWords, assemble, asmByte, encode, hm, hn] using mkWord_ofNat 0x01 hm hn

/-- A line with one operand `n` up to `bound`: its word, or none above the bound. -/
theorem assembleWords_one {line : AsmLine} {mk : Byte → Instr} {op : Byte} {n bound : Nat}
    (hl : assemble line = (if n ≤ bound then some (BitVec.ofNat 8 n) else none).map fun b => [mk b])
    (he : ∀ b, encode (mk b) = mkWord op 0 b) (hb : bound ≤ 255) :
    assembleWords line = if n ≤ bound then some [BitVec.ofNat 24 (65536 * op.toNat + n)] else none := by
  rw [assembleWords, hl]
  split
  · rename_i hn
    rw [← mkWord_zero_ofNat op (hn.trans hb), ← he]
    rfl
  · rfl

/-- Settles O8: the word of each line by its fields. -/
theorem assemblyLinesHaveTheirWords : Obligations.AssemblyLinesHaveTheirWords := by
  refine ⟨by decide, by decide, by decide, by decide, by decide, fun m n => ⟨assembleWords_tx m n, ?_, ?_, ?_, ?_, ?_⟩⟩
  · by_cases hm : m ≤ 255 <;> simp [assembleWords, assemble, asmByte, hm]
  · exact assembleWords_one (mk := .clr) (op := 0x02) rfl (fun _ => rfl) (by decide)
  · exact assembleWords_one (mk := .encBegin) (op := 0x10) rfl (fun _ => rfl) (by decide)
  · exact assembleWords_one (mk := .encChar) (op := 0x11) rfl (fun _ => rfl) (by decide)
  · exact assembleWords_one (mk := .rdMsg) (op := 0x20) rfl (fun _ => rfl) (by decide)

end Sys2Proof.Machine
end

section
/-! PROOFS of 41_encoder.md: the streaming encoder computes the encode of the document as a function on lists (R59, R79 to R90). -/

namespace Sys2Proof.Machine

/-! ### What one character does in each escape state (R80) -/

theorem encStep_point {cfg : Config} {e : Enc} (ho : e.mode = .opened) (hs : e.escSt = .none) :
    encStep cfg cfg.pointChar.code e = encPoint cfg cfg.pointChar.code e := by
  simp [encStep, ho, hs]

theorem encStep_marker {cfg : Config} {e : Enc} (ho : e.mode = .opened) (hs : e.escSt = .none)
    (hp : cfg.escChar ≠ cfg.pointChar.code) : encStep cfg cfg.escChar e = { e with escSt := .mark } := by
  simp [encStep, ho, hs, hp]

theorem encStep_ordinary {cfg : Config} {c : Byte} {e : Enc} (ho : e.mode = .opened) (hs : e.escSt = .none)
    (hp : c ≠ cfg.pointChar.code) (hm : c ≠ cfg.escChar) : encStep cfg c e = encOrdinary cfg c e := by
  simp [encStep, ho, hs, hp, hm]

theorem encStep_mark {cfg : Config} {c : Byte} {e : Enc} (ho : e.mode = .opened) (hs : e.escSt = .mark) :
    encStep cfg c e = encAfterMark cfg c e := by
  simp [encStep, ho, hs]

theorem encStep_hex1 {cfg : Config} {c : Byte} {e : Enc} (ho : e.mode = .opened) (hs : e.escSt = .hex1) :
    encStep cfg c e = encAfterHex1 cfg c e := by
  simp [encStep, ho, hs]

section
variable {cfg : Config} {e : Enc} {d : Byte} (ho : e.mode = .opened) (hs : e.escSt = .none)
  (hp : cfg.escChar ≠ cfg.pointChar.code)
include ho hs hp

/-- The marker twice is looked up (R82). -/
theorem encStep_pair :
    encStep cfg cfg.escChar (encStep cfg cfg.escChar e) = encOrdinary cfg cfg.escChar { e with escSt := .none } := by
  rw [encStep_marker ho hs hp, encStep_mark (e := { e with escSt := .mark }) ho rfl, encAfterMark, if_pos rfl]

/-- The marker and a character that is neither the marker nor a digit fails (R82). -/
theorem encStep_marker_other (hd : d ≠ cfg.escChar) (hx : isHex d = false) :
    encStep cfg d (encStep cfg cfg.escChar e) = encFail .escape { e with escSt := .mark } := by
  rw [encStep_marker ho hs hp, encStep_mark (e := { e with escSt := .mark }) ho rfl, encAfterMark, if_neg hd, hx,
    if_neg Bool.false_ne_true]

/-- The marker and a digit (R82). -/
theorem encStep_marker_hex (hd : d ≠ cfg.escChar) (hx : isHex d = true) :
    encStep cfg d (encStep cfg cfg.escChar e) = { e with escSt := .hex1, escHi := hexVal d } := by
  rw [encStep_marker ho hs hp, encStep_mark (e := { e with escSt := .mark }) ho rfl, encAfterMark, if_neg hd, if_pos hx]

/-- The marker, a digit and one more character: the byte that two digits write, or a failure (R83). -/
theorem encStep_marker_hex_any (hd : d ≠ cfg.escChar) (hx : isHex d = true) (h : Byte) :
    encStep cfg h (encStep cfg d (encStep cfg cfg.escChar e)) =
      if isHex h then encEmit cfg (hexVal d ++ hexVal h) false { e with escSt := .none, escHi := hexVal d }
      else encFail .escape { e with escSt := .hex1, escHi := hexVal d } := by
  rw [encStep_marker_hex ho hs hp hd hx, encStep_hex1 (e := { e with escSt := .hex1, escHi := hexVal d }) ho rfl, encAfterHex1]

end

/-! ### The message as a list -/

@[simp] theorem message_length (e : Enc) : (message e).length = e.msgLen := by simp [message]

theorem message_eq_nil_iff (e : Enc) : message e = [] ↔ e.msgLen = 0 := by simp [message]

/-- The message is the bytes below MSGLEN (R26). -/
theorem message_congr {e e' : Enc} (hl : e'.msgLen = e.msgLen) (hr : ∀ a < e.msgLen, msgRead e' a = msgRead e a) :
    message e' = message e := by
  rw [message, message, hl]
  exact List.map_congr_left fun a ha => hr a (List.mem_range.mp ha)

theorem message_succ {e : Enc} {n : Nat} (h : e.msgLen = n + 1) :
    message e = (List.range n).map (msgRead e) ++ [msgRead e n] := by
  rw [message, h, List.range_succ, List.map_append, List.map_singleton]

/-- A byte written at MSGLEN, which then goes up by one, is appended (R79). -/
theorem message_append {e e' : Enc} {g : Byte} (hl : e'.msgLen = e.msgLen + 1) (hb : e'.msgBuf = e.msgBuf.write e.msgLen g) :
    message e' = message e ++ [g] := by
  rw [message_succ hl, message, msgRead_of_write hb, if_pos rfl]
  congr 1
  refine List.map_congr_left fun a ha => ?_
  rw [msgRead_of_write hb, if_neg (List.mem_range.mp ha).ne]

/-- The point in the last byte is `mergePoint` (R81). -/
theorem message_merge {e : Enc} (h : e.msgLen ≠ 0) :
    message (msgWrite (e.msgLen - 1) (msgRead e (e.msgLen - 1) ||| dpBit) e) = mergePoint (message e) := by
  obtain ⟨n, hn⟩ := Nat.exists_eq_succ_of_ne_zero h
  rw [message_succ (e := msgWrite _ _ e) hn, message_succ (e := e) hn, hn, Nat.succ_sub_one, msgRead_msgWrite, if_pos rfl]
  simp only [mergePoint, List.dropLast_concat, List.getLast?_concat, Option.toList_some, List.map_cons, List.map_nil]
  congr 1
  refine List.map_congr_left fun a ha => ?_
  rw [msgRead_msgWrite, if_neg (List.mem_range.mp ha).ne]

/-! ### `encodeList`, case by case -/

/-- `encodeList` over the rest of the text once a character has been looked up with answer `r` (R79, R85). -/
def encodeListGlyph (cfg : Config) (m : List Byte) (text : List Byte) (r : Option (Byte × Bool)) : Except EncErr (List Byte) :=
  match r with
  | none => .error .lookup
  | some (g, fb) =>
    match pushGlyph cfg m g with
    | .error r => .error r
    | .ok m' => encodeList cfg m' fb text

section
variable {cfg : Config} {m : List Byte} {fb : Bool}

theorem encodeList_nil : encodeList cfg m fb [] = .ok m := by rw [encodeList]

theorem encodeList_point {text : List Byte} : encodeList cfg m fb (cfg.pointChar.code :: text) =
    if m = [] then encodeList cfg m fb text
    else if fb && cfg.pointAfterFallback == .lookup && !compatQ cfg then
      encodeListGlyph cfg m text (resolve cfg cfg.pointChar.code)
    else encodeList cfg (mergePoint m) fb text := by
  rw [encodeList.eq_def]
  simp only [if_pos]
  rfl

theorem encodeList_ordinary {c : Byte} {text : List Byte} (hp : c ≠ cfg.pointChar.code) (hm : c ≠ cfg.escChar) :
    encodeList cfg m fb (c :: text) = encodeListGlyph cfg m text (resolve cfg c) := by
  rw [encodeList.eq_def]
  simp only [if_neg hp, if_neg hm]
  rfl

/-- A marker at the end of the text. -/
theorem encodeList_marker (hp : cfg.escChar ≠ cfg.pointChar.code) :
    encodeList cfg m fb [cfg.escChar] = .error .escape := by
  rw [encodeList.eq_def]
  simp only [if_neg hp, if_pos]

theorem encodeList_pair {text : List Byte} (hp : cfg.escChar ≠ cfg.pointChar.code) :
    encodeList cfg m fb (cfg.escChar :: cfg.escChar :: text) = encodeListGlyph cfg m text (resolve cfg cfg.escChar) := by
  rw [encodeList.eq_def]
  simp only [if_neg hp, if_pos]
  rfl

theorem encodeList_malformed {d : Byte} {text : List Byte} (hp : cfg.escChar ≠ cfg.pointChar.code) (hd : d ≠ cfg.escChar)
    (hx : isHex d = false) : encodeList cfg m fb (cfg.escChar :: d :: text) = .error .escape := by
  rw [encodeList.eq_def]
  simp [if_neg hp, if_neg hd, hx]

/-- A marker and one digit at the end of the text. -/
theorem encodeList_hex_open {d : Byte} (hp : cfg.escChar ≠ cfg.pointChar.code) (hd : d ≠ cfg.escChar)
    (hx : isHex d = true) : encodeList cfg m fb [cfg.escChar, d] = .error .escape := by
  rw [encodeList.eq_def]
  simp [if_neg hp, if_neg hd, hx]

theorem encodeList_hex {d h : Byte} {text : List Byte} (hp : cfg.escChar ≠ cfg.pointChar.code) (hd : d ≠ cfg.escChar)
    (hx : isHex d = true) : encodeList cfg m fb (cfg.escChar :: d :: h :: text) =
      if isHex h then encodeListGlyph cfg m text (some (hexVal d ++ hexVal h, false)) else .error .escape := by
  rw [encodeList.eq_def]
  simp only [if_neg hp, if_neg hd, hx, if_pos]
  rfl

end

/-! ### The stream from an open session -/

/-- What the stream ends with when it takes the whole of `text`, and then the text is over (R88, R90). -/
def textResult (cfg : Config) (text : List Byte) (e : Enc) : Except EncErr (List Byte) :=
  sessionResult (encClose (encSteps cfg text e))

/-- From every open session with no escape open the stream over `text` computes `encodeList`. -/
def StreamsTo (cfg : Config) (text : List Byte) : Prop :=
  ∀ e : Enc, e.mode = .opened → e.escSt = .none → textResult cfg text e = encodeList cfg (message e) e.lastFb text

section
variable {cfg : Config} {e : Enc}

theorem textResult_cons (c : Byte) (text : List Byte) :
    textResult cfg (c :: text) e = textResult cfg text (encStep cfg c e) := rfl

theorem textResult_nil (ho : e.mode = .opened) (hs : e.escSt = .none) : textResult cfg [] e = .ok (message e) := by
  simp [textResult, encSteps, encClose, sessionResult, ho, hs]
  rfl

/-- An escape left open is malformed (R88). -/
theorem textResult_nil_open (ho : e.mode = .opened) (hs : e.escSt ≠ .none) : textResult cfg [] e = .error .escape := by
  simp [textResult, encSteps, encClose, sessionResult, ho, hs]

/-- The first failure decides (R95). -/
theorem textResult_encFail (r : EncErr) (text : List Byte) : textResult cfg text (encFail r e) = .error r := by
  induction text with
  | nil => rfl
  | cons c text ih => rw [textResult_cons, encStep_of_not_opened (by simp), ih]

theorem textResult_encEmit {text : List Byte} (ih : StreamsTo cfg text) (ho : e.mode = .opened) (hs : e.escSt = .none)
    (g : Byte) (fb : Bool) :
    textResult cfg text (encEmit cfg g fb e) = encodeListGlyph cfg (message e) text (some (g, fb)) := by
  simp only [encEmit, encodeListGlyph, pushGlyph, message_length]
  split
  · exact textResult_encFail _ _
  · refine (ih _ ?_ ?_).trans ?_
    · exact ho
    · exact hs
    · rw [message_append (e := e) rfl rfl]

theorem textResult_encOrdinary {text : List Byte} (ih : StreamsTo cfg text) (ho : e.mode = .opened) (hs : e.escSt = .none)
    (c : Byte) : textResult cfg text (encOrdinary cfg c e) = encodeListGlyph cfg (message e) text (resolve cfg c) := by
  unfold encOrdinary
  split
  · rename_i hr
    rw [textResult_encFail, hr, encodeListGlyph]
  · rename_i g fb hr
    rw [textResult_encEmit ih ho hs, hr]

end

section
variable {cfg : Config} {text : List Byte}

theorem streamsTo_nil : StreamsTo cfg [] := fun e ho hs => by rw [textResult_nil ho hs, encodeList_nil]

theorem streamsTo_point (ih : StreamsTo cfg text) : StreamsTo cfg (cfg.pointChar.code :: text) := by
  intro e ho hs
  rw [textResult_cons, encStep_point ho hs, encodeList_point, encPoint]
  simp only [message_eq_nil_iff]
  split
  · exact ih e ho hs
  · rename_i hl
    split
    · exact textResult_encOrdinary ih ho hs _
    · refine (ih (msgWrite _ _ e) ho hs).trans ?_
      rw [message_merge hl]
      rfl

theorem streamsTo_ordinary (ih : StreamsTo cfg text) {c : Byte} (hp : c ≠ cfg.pointChar.code) (hm : c ≠ cfg.escChar) :
    StreamsTo cfg (c :: text) := by
  intro e ho hs
  rw [textResult_cons, encStep_ordinary ho hs hp hm, encodeList_ordinary hp hm, textResult_encOrdinary ih ho hs]

variable (hp : cfg.escChar ≠ cfg.pointChar.code)
include hp

theorem streamsTo_marker : StreamsTo cfg [cfg.escChar] := by
  intro e ho hs
  rw [textResult_cons, encStep_marker ho hs hp, encodeList_marker hp]
  exact textResult_nil_open ho (by simp)

theorem streamsTo_pair (ih : StreamsTo cfg text) : StreamsTo cfg (cfg.escChar :: cfg.escChar :: text) := by
  intro e ho hs
  rw [textResult_cons, textResult_cons, encStep_pair ho hs hp, encodeList_pair hp]
  exact textResult_encOrdinary (e := { e with escSt := .none }) ih ho rfl _

theorem streamsTo_malformed {d : Byte} (hd : d ≠ cfg.escChar) (hx : isHex d = false) :
    StreamsTo cfg (cfg.escChar :: d :: text) := by
  intro e ho hs
  rw [textResult_cons, textResult_cons, encStep_marker_other ho hs hp hd hx, encodeList_malformed hp hd hx]
  exact textResult_encFail _ _

theorem streamsTo_hex_open {d : Byte} (hd : d ≠ cfg.escChar) (hx : isHex d = true) : StreamsTo cfg [cfg.escChar, d] := by
  intro e ho hs
  rw [textResult_cons, textResult_cons, encStep_marker_hex ho hs hp hd hx, encodeList_hex_open hp hd hx]
  exact textResult_nil_open ho (by simp)

theorem streamsTo_hex (ih : StreamsTo cfg text) {d : Byte} (hd : d ≠ cfg.escChar) (hx : isHex d = true) (h : Byte) :
    StreamsTo cfg (cfg.escChar :: d :: h :: text) := by
  intro e ho hs
  rw [textResult_cons, textResult_cons, textResult_cons, encStep_marker_hex_any ho hs hp hd hx, encodeList_hex hp hd hx]
  split
  · exact textResult_encEmit (e := { e with escSt := .none, escHi := hexVal d }) ih ho rfl _ _
  · exact textResult_encFail _ _

end

/-- The stream computes `encodeList`, by recursion on the text as `encodeList` reads it: a point, an escape or an ordinary
character at a time (R59). -/
theorem streamsTo (cfg : Config) : ∀ text : List Byte, StreamsTo cfg text
  | [] => streamsTo_nil
  | c :: text => by
    by_cases hp : c = cfg.pointChar.code
    · subst hp
      exact streamsTo_point (streamsTo cfg text)
    by_cases hm : c = cfg.escChar
    · subst hm
      match text with
      | [] => exact streamsTo_marker hp
      | d :: text' =>
        by_cases hd : d = cfg.escChar
        · subst hd
          exact streamsTo_pair hp (streamsTo cfg text')
        cases hx : isHex d
        · exact streamsTo_malformed hp hd hx
        · match text' with
          | [] => exact streamsTo_hex_open hp hd hx
          | h :: text'' => exact streamsTo_hex hp (streamsTo cfg text'') hd hx h
    · exact streamsTo_ordinary (streamsTo cfg text) hp hm

/-! ### The whole session (R90) -/

theorem encSteps_append (cfg : Config) (l l' : List Byte) (e : Enc) :
    encSteps cfg (l ++ l') e = encSteps cfg l' (encSteps cfg l e) := List.foldl_append

theorem encPad_eq_encSteps (cfg : Config) (n : Nat) (e : Enc) :
    encPad cfg n e = encSteps cfg (List.replicate n cfg.padChar) e := by
  induction n generalizing e with
  | zero => rfl
  | succ n ih => rw [encPad, ih, List.replicate_succ]; rfl

@[simp] theorem encSteps_padSuf (cfg : Config) (text : List Byte) (e : Enc) : (encSteps cfg text e).padSuf = e.padSuf := by
  induction text generalizing e with
  | nil => rfl
  | cons c text ih => exact (ih _).trans (encStep_padSuf cfg c e)

/-- ENCODE takes the padded text as one text (R90). -/
theorem encodeFrom_eq_textResult (cfg : Config) (text : List Byte) (p : Nat) (e : Enc) :
    encodeFrom cfg text p e = textResult cfg (paddedText cfg text p) (encOpen p e) := by
  have pad : (encSteps cfg text (encBegin cfg p e)).padSuf = p := by simp [encBegin, encOpen]
  rw [encodeFrom, encEnd, pad, textResult, paddedText, encSteps_append, encSteps_append, encBegin, encPad_eq_encSteps,
    encPad_eq_encSteps]

/-- Settles O56: a new session has an empty message and no fallback glyph before it. -/
theorem streamComputesTheListFunction : Obligations.StreamComputesTheListFunction := by
  intro cfg text p e
  rw [encodeFrom_eq_textResult, streamsTo cfg _ _ rfl rfl]
  rfl

end Sys2Proof.Machine
end

section
/-! PROOFS of 30_encoding.md: words one after the other, and the ENCODE pseudo-command (R58, R90). -/

namespace Sys2Proof.Machine

/-! ### Words one after the other -/

/-- Accepted words always complete, and each does to the encoder what `encOfWord` says (R31(c), R91). -/
theorem acceptWords_enc (ws : List Word) (s : State) :
    ∃ t, acceptWords ws s = .next t ∧ t.enc = ws.foldl (fun e w => encOfWord s.cfg w e) s.enc := by
  induction ws generalizing s with
  | nil => exact ⟨s, rfl, rfl⟩
  | cons w ws ih =>
    obtain ⟨u, hu, -⟩ := acceptWord_next w s
    obtain ⟨cfg, -, -⟩ := acceptWord_frame hu
    obtain ⟨t, ht, enc⟩ := ih u
    exact ⟨t, by rw [acceptWords_cons hu, ht], by rw [enc, cfg, acceptWord_enc hu, List.foldl_cons]⟩

/-- The word of ENC_BEGIN with a count in range (R86). -/
theorem encOfWord_encBegin {p : Nat} (hp : p ≤ 127) (cfg : Config) (e : Enc) :
    encOfWord cfg (encode (.encBegin (BitVec.ofNat 8 p))) e = encBegin cfg p e := by
  have small : (BitVec.ofNat 8 p).toNat = p := by rw [BitVec.toNat_ofNat]; omega
  rw [encOfWord, encode, decode_encBegin_row, small, if_neg (by simp; omega)]
  simp only [padCount_of_lt (small.trans_lt (Nat.lt_succ_of_le hp)), small]

theorem encOfWord_encBeginA (cfg : Config) (e : Enc) :
    encOfWord cfg (encode .encBeginA) e = encBegin cfg cfg.nDigits e := by rw [encOfWord, decode_encode rfl]

theorem encOfWord_encChar (cfg : Config) (c : Byte) (e : Enc) :
    encOfWord cfg (encode (.encChar c)) e = encStep cfg c e := by rw [encOfWord, decode_encode rfl]

theorem encOfWord_encEnd (cfg : Config) (e : Enc) :
    encOfWord cfg (encode .encEnd) e = encEnd cfg e := by rw [encOfWord, decode_encode rfl]

/-- The ENC_CHAR words of a text feed it to the encoder. -/
theorem foldl_encOfWord_encChar (cfg : Config) (l : List Byte) (e : Enc) :
    (l.map fun c => encode (.encChar c)).foldl (fun e w => encOfWord cfg w e) e = encSteps cfg l e := by
  simp only [List.foldl_map, encOfWord_encChar, encSteps]

/-- The ENC_CHAR words of a text do to the encoder what its steps do (R87). -/
theorem acceptWords_encChars (l : List Byte) (s : State) :
    ∃ t, acceptWords (l.map fun c => mkWord 0x11 0 c) s = .next t ∧ t.enc = encSteps s.cfg l s.enc := by
  obtain ⟨t, ht, enc⟩ := acceptWords_enc (l.map fun c => encode (.encChar c)) s
  exact ⟨t, ht, by rw [enc, foldl_encOfWord_encChar]⟩

/-! ### The words of ENCODE (R58) -/

/-- A command that begins a session, the characters of a text, and ENC_END. -/
def sessionWords (start : Instr) (text : List Byte) : List Word :=
  encode start :: text.map (fun c => encode (.encChar c)) ++ [encode .encEnd]

theorem asmText_eq (text : List Nat) : asmText text =
    if ∀ c ∈ text, c ≤ 255 then some ((text.map (BitVec.ofNat 8)).map .encChar) else none := by
  induction text with
  | nil => rfl
  | cons c text ih =>
    rw [asmText, ih, asmByte]
    by_cases hc : c ≤ 255
    case neg => simp [hc]
    by_cases ht : ∀ c ∈ text, c ≤ 255
    · have all : ∀ d ∈ c :: text, d ≤ 255 := List.forall_mem_cons.mpr ⟨hc, ht⟩
      rw [if_pos hc, if_pos ht, if_pos all, List.map_cons, List.map_cons]
    · rw [if_pos hc, if_neg ht, if_neg fun h => ht (List.forall_mem_cons.mp h).2]

theorem assembleWords_encode (text : List Nat) (p : Nat) : assembleWords (.encode text p) =
    if p ≤ 127 ∧ ∀ c ∈ text, c ≤ 255 then some (sessionWords (.encBegin (BitVec.ofNat 8 p)) (text.map (BitVec.ofNat 8)))
    else none := by
  rw [assembleWords, assemble, asmText_eq, asmPad]
  by_cases hp : p ≤ 127
  case neg => simp [hp]
  by_cases ht : ∀ c ∈ text, c ≤ 255
  · rw [if_pos hp, if_pos ht, if_pos ⟨hp, ht⟩]
    simp [sessionWords]
  · rw [if_pos hp, if_neg ht, if_neg fun h => ht h.2]
    rfl

theorem assembleWords_encodeAuto (text : List Nat) : assembleWords (.encodeAuto text) =
    if ∀ c ∈ text, c ≤ 255 then some (sessionWords .encBeginA (text.map (BitVec.ofNat 8))) else none := by
  rw [assembleWords, assemble, asmText_eq]
  split <;> simp [sessionWords]

/-- The result of ENCODE does not depend on the encoder it begins from (R90). -/
theorem encodeFrom_congr (cfg : Config) (text : List Byte) (p : Nat) (e e' : Enc) :
    encodeFrom cfg text p e = encodeFrom cfg text p e' := by
  rw [streamComputesTheListFunction, streamComputesTheListFunction]

/-- The words of a session leave the result of ENCODE, from any state (R90, R91). -/
theorem acceptWords_session {start : Instr} {p : Nat} {s : State} (text : List Byte)
    (begins : encOfWord s.cfg (encode start) s.enc = encBegin s.cfg p s.enc) :
    ∃ t, acceptWords (sessionWords start text) s = .next t ∧
      sessionResult t.enc = encodeFrom s.cfg text p Enc.reset := by
  obtain ⟨t, ht, enc⟩ := acceptWords_enc (sessionWords start text) s
  refine ⟨t, ht, ?_⟩
  rw [enc, sessionWords, List.cons_append, List.foldl_cons, List.foldl_append, begins, foldl_encOfWord_encChar, List.foldl_cons,
    List.foldl_nil, encOfWord_encEnd, encodeFrom_congr _ _ _ _ s.enc, encodeFrom]

/-- Settles O7: the words of ENCODE are a session, whose count is `p` or N_DIGITS. -/
theorem assembledEncodeComputesEncode : Obligations.AssembledEncodeComputesEncode := by
  intro text p s
  simp only [assembleWords_encode, assembleWords_encodeAuto]
  refine ⟨?_, ?_, fun ws h => ?_, fun ws h => ?_⟩
  · simp [imp_iff_not_or]
  · simp
  · obtain ⟨⟨hp, -⟩, ⟨⟩⟩ := Option.ite_none_right_eq_some.mp h
    exact acceptWords_session _ (encOfWord_encBegin hp _ _)
  · obtain ⟨-, ⟨⟩⟩ := Option.ite_none_right_eq_some.mp h
    exact acceptWords_session _ (encOfWord_encBeginA _ _)

end Sys2Proof.Machine
end

section
/-! PROOFS of 30_encoding.md: the literal escape (R59, R82 to R84). -/

namespace Sys2Proof.Machine

/-- The hex digits by their values (R84). -/
theorem isHex_iff (c : Byte) : isHex c = true ↔
    (0x30 ≤ c.toNat ∧ c.toNat ≤ 0x39) ∨ (0x41 ≤ c.toNat ∧ c.toNat ≤ 0x46) ∨ (0x61 ≤ c.toNat ∧ c.toNat ≤ 0x66) := by
  simp [isHex, BitVec.le_def, or_assoc]

/-- `c` writes the hex digit of value `n`, in either letter case. -/
def WritesDigit (n : Nat) (c : Byte) : Prop :=
  (n < 10 ∧ c = BitVec.ofNat 8 (0x30 + n)) ∨
  (10 ≤ n ∧ (c = BitVec.ofNat 8 (0x41 + (n - 10)) ∨ c = BitVec.ofNat 8 (0x61 + (n - 10))))

/-- A character that writes a digit is a hex digit of that value (R84). -/
theorem WritesDigit.isHex_and_hexVal {n : Nat} {c : Byte} (h : WritesDigit n c) (hn : n < 16) :
    isHex c = true ∧ hexVal c = BitVec.ofNat 4 n := by
  have decimal : ∀ n < 10, isHex (BitVec.ofNat 8 (0x30 + n)) = true ∧ hexVal (BitVec.ofNat 8 (0x30 + n)) = BitVec.ofNat 4 n := by
    decide
  have upper : ∀ k < 6, isHex (BitVec.ofNat 8 (0x41 + k)) = true ∧ hexVal (BitVec.ofNat 8 (0x41 + k)) = BitVec.ofNat 4 (10 + k) := by
    decide
  have lower : ∀ k < 6, isHex (BitVec.ofNat 8 (0x61 + k)) = true ∧ hexVal (BitVec.ofNat 8 (0x61 + k)) = BitVec.ofNat 4 (10 + k) := by
    decide
  rcases h with ⟨h10, rfl⟩ | ⟨h10, rfl | rfl⟩
  · exact decimal n h10
  · simpa [Nat.add_sub_cancel' h10] using upper (n - 10) (by omega)
  · simpa [Nat.add_sub_cancel' h10] using lower (n - 10) (by omega)

/-- The byte of two hex digits (R83). -/
theorem ofNat_append_ofNat (hi : Nat) {lo : Nat} (hlo : lo < 16) :
    (BitVec.ofNat 4 hi ++ BitVec.ofNat 4 lo : Byte) = BitVec.ofNat 8 (16 * hi + lo) := by
  apply BitVec.eq_of_toNat_eq
  rw [BitVec.toNat_append, ← Nat.shiftLeft_add_eq_or_of_lt (BitVec.isLt _), Nat.shiftLeft_eq]
  simp only [BitVec.toNat_ofNat]
  omega

/-- A hex digit is not the marker in a well-formed instance (R6). -/
theorem ne_escChar_of_isHex {cfg : Config} (hw : cfg.wf = true) {c : Byte} (h : isHex c = true) : c ≠ cfg.escChar := by
  obtain ⟨-, -, -, marker⟩ := wf_chars hw
  rintro rfl
  simp [marker] at h

/-- Settles O47: `encStep` over the characters of an escape, and the values of the digits. -/
theorem literalEscapeEmitsItsByte : Obligations.LiteralEscapeEmitsItsByte := by
  refine ⟨?_, ?_, ?_⟩
  · intro s hi lo x y hw ho hs room hhi hlo digits
    obtain ⟨hx, vx⟩ := WritesDigit.isHex_and_hexVal (digits hi x (by simp)) hhi
    obtain ⟨hy, vy⟩ := WritesDigit.isHex_and_hexVal (digits lo y (by simp)) hlo
    obtain ⟨t, ht, enc⟩ := acceptWords_encChars [s.cfg.escChar, x, y] s
    obtain ⟨hp, -⟩ := wf_chars hw
    have appended : t.enc = encEmit s.cfg (BitVec.ofNat 8 (16 * hi + lo)) false
        { s.enc with escSt := .none, escHi := hexVal x } := by
      rw [← ofNat_append_ofNat hi hlo, ← vx, ← vy]
      exact enc.trans ((encStep_marker_hex_any ho hs hp (ne_escChar_of_isHex hw hx) hx y).trans (if_pos hy))
    rw [encEmit, if_neg room.ne] at appended
    refine ⟨t, ht, ?_⟩
    rw [appended]
    exact ⟨ho, rfl, rfl, (msgRead_of_write rfl _).trans (if_pos rfl), rfl⟩
  · intro s x hw ho hs hm hx
    obtain ⟨t, ht, enc⟩ := acceptWords_encChars [s.cfg.escChar, x] s
    obtain ⟨hp, -⟩ := wf_chars hw
    replace hx : isHex x = false := by simpa [← isHex_iff] using hx
    refine ⟨t, ht, ?_⟩
    rw [enc.trans (encStep_marker_other ho hs hp hm hx)]
    exact ⟨rfl, rfl, rfl, rfl⟩
  · intro s x y hw ho hs hx hy
    obtain ⟨t, ht, enc⟩ := acceptWords_encChars [s.cfg.escChar, x, y] s
    obtain ⟨hp, -⟩ := wf_chars hw
    replace hx : isHex x = true := (isHex_iff x).mpr hx
    replace hy : ¬isHex y = true := fun h => hy ((isHex_iff y).mp h)
    refine ⟨t, ht, ?_⟩
    rw [enc.trans ((encStep_marker_hex_any ho hs hp (ne_escChar_of_isHex hw hx) hx y).trans (if_neg hy))]
    exact ⟨rfl, rfl, rfl, rfl⟩

end Sys2Proof.Machine
end

section
/-! PROOFS of 40_transmitter.md: the frame of a command, the receiver's answer to a line write, and what the transmitter and the
encoder share (R61 to R64, R70, R73). -/

namespace Sys2Proof.Machine

/-! ### Frames (R63) -/

/-- Polarity, bit by bit: an unlit level is the complement of the lit one. -/
theorem segw_eq (cfg : Config) (seg : Byte) : segw cfg seg = if cfg.litLevel then seg else ~~~seg := by
  have flip : seg ^^^ 0xFF = ~~~seg := BitVec.xor_allOnes
  rw [segw, flip]

theorem segw_zero (cfg : Config) : segw cfg 0x00 = if cfg.litLevel then (0x00 : Byte) else 0xFF := rfl

theorem segw_bit (cfg : Config) (seg : Byte) {j : Nat} (hj : j < 8) :
    (segw cfg seg).getLsbD j = if seg.getLsbD j then cfg.litLevel else !cfg.litLevel := by
  rw [segw_eq]
  cases cfg.litLevel with
  | true => cases hs : seg.getLsbD j <;> exact hs
  | false => rw [if_neg Bool.false_ne_true, BitVec.getLsbD_not, decide_eq_true hj]; cases seg.getLsbD j <;> rfl

theorem txFrame_segment_bit (cfg : Config) (seg dig : Byte) (j : Nat) :
    (txFrame cfg seg dig).getLsbD (8 + j) = (segw cfg seg).getLsbD j := by
  rw [txFrame, BitVec.getLsbD_append, if_neg (by omega), Nat.add_sub_cancel_left]

theorem txFrame_digit_bit (cfg : Config) (seg dig : Byte) {j : Nat} (hj : j < 8) :
    (txFrame cfg seg dig).getLsbD j = dig.getLsbD j := by
  rw [txFrame, BitVec.getLsbD_append, if_pos hj]

/-- Settles O33: the bits of the frame, and the events that put them on DATA. -/
theorem polarityConvertsOnlySegments : Obligations.PolarityConvertsOnlySegments := fun cfg seg dig =>
  ⟨fun _ hj => segw_bit cfg seg hj, fun j _ => txFrame_segment_bit cfg seg dig j, fun _ hj => txFrame_digit_bit cfg seg dig hj,
    fun _ hi => lineEvent_data _ hi⟩

/-! ### The commands (R62, R64) -/

theorem exec_tx (seg dig : Byte) (s : State) : exec (.tx seg dig) s = .next (startTx (txFrame s.cfg seg dig) s) := rfl

theorem exec_clr (dig : Byte) (s : State) : exec (.clr dig) s = .next (startTx (txFrame s.cfg 0x00 dig) s) := rfl

/-- Settles O32: the frame of TX, polarity written out. -/
theorem txStartsATransaction : Obligations.TxStartsATransaction := by
  intro seg dig s
  rw [exec_tx, startTx, txFrame, segw_eq]

/-- Settles O34: CLR's row of the decode table, and TX of the all-unlit byte. -/
theorem clrTransmitsTheBlankByte : Obligations.ClrTransmitsTheBlankByte := by
  refine ⟨fun dig s => ⟨decode_clr_row 0 dig, rfl, ?_⟩, fun a dig s ha => ?_, fun s hl => ?_⟩
  · rw [exec_clr, startTx, txFrame, segw_zero]
  · exact acceptWord_of_error ((decode_clr_row a dig).trans (if_pos ha)) s
  · have word : decode 0x0200FF = .ok (.clr 0xFF) := decode_clr_row 0 0xFF
    refine ⟨_, (acceptWord_of_ok word s).trans (exec_clr 0xFF s), ?_⟩
    rw [startTx_tx, txFrame, segw_zero, hl]
    rfl

/-! ### Line writes and the receiver (R73) -/

/-- The receiver's shift as a shift of the register. -/
theorem shifted_eq (r : Frame) (b : Bool) :
    (r.extractLsb' 0 15 ++ BitVec.ofBool b : Frame) = r <<< 1 ||| (BitVec.ofBool b).setWidth 16 := by
  apply BitVec.eq_of_getElem_eq
  intro i hi
  rw [BitVec.getElem_append]
  cases i with
  | zero => simp
  | succ i => simp [show i < 16 by omega]

theorem Receiver.onSclk_high {l : Lines} (h : l.sclk = true) (b : Bool) (r : Receiver) : r.onSclk l b = r := by
  simp [Receiver.onSclk, h]

theorem Receiver.onRclk_high {l : Lines} (h : l.rclk = true) (b : Bool) (r : Receiver) : r.onRclk l b = r := by
  simp [Receiver.onRclk, h]

/-- The receiver's outputs are the halves of LAT. -/
theorem Receiver.segments_append_digits (r : Receiver) : r.segments ++ r.digits = r.lat := by
  rw [Receiver.segments, Receiver.digits, BitVec.extractLsb'_append_extractLsb'_eq_extractLsb' (Nat.zero_add 8).symm]
  exact BitVec.extractLsb'_eq_self

/-- Settles O37: the receiver's answer to each line write. -/
theorem receiverShiftsAndLatches : Obligations.ReceiverShiftsAndLatches := by
  refine ⟨fun s => ⟨fun h => ?_, fun h => ?_, fun h => ?_, fun h => ?_, ?_, ?_, fun b => rfl⟩, Receiver.segments_append_digits⟩
  · rw [lineWrite_sclk_rx, Receiver.onSclk_rise h, shifted_eq]
  · rw [lineWrite_rclk_rx, Receiver.onRclk_rise h]
  · exact Receiver.onSclk_high h true s.rx
  · exact Receiver.onRclk_high h true s.rx
  · exact Receiver.onSclk_fall s.lines s.rx
  · exact Receiver.onRclk_fall s.lines s.rx

/-- From `s` to `t` the receiver moves on rising edges alone: SR with SCLK, LAT with RCLK. -/
def MovesOnRises (s t : State) : Prop :=
  (t.rx.sr ≠ s.rx.sr → s.lines.sclk = false ∧ t.lines.sclk = true) ∧
  (t.rx.lat ≠ s.rx.lat → s.lines.rclk = false ∧ t.lines.rclk = true)

theorem movesOnRises_of_rx_eq {s t : State} (h : t.rx = s.rx) : MovesOnRises s t :=
  ⟨fun hne => absurd (by rw [h]) hne, fun hne => absurd (by rw [h]) hne⟩

theorem lineWrite_movesOnRises (w : LineWrite) (s : State) : MovesOnRises s (lineWrite w s) := by
  cases w with
  | data b => exact movesOnRises_of_rx_eq rfl
  | sclk b =>
    by_cases edge : s.lines.sclk = false ∧ b = true
    · obtain ⟨low, rfl⟩ := edge
      exact ⟨fun _ => ⟨low, rfl⟩, fun hne => absurd (by rw [lineWrite_sclk_rx, Receiver.onSclk_rise low]) hne⟩
    · exact movesOnRises_of_rx_eq (if_neg (by simpa using edge))
  | rclk b =>
    by_cases edge : s.lines.rclk = false ∧ b = true
    · obtain ⟨low, rfl⟩ := edge
      exact ⟨fun hne => absurd (by rw [lineWrite_rclk_rx, Receiver.onRclk_rise low]) hne, fun _ => ⟨low, rfl⟩⟩
    · exact movesOnRises_of_rx_eq (if_neg (by simpa using edge))

theorem txEvent_movesOnRises (s : State) : MovesOnRises s (txEvent s) := by
  unfold txEvent
  split
  · exact lineWrite_movesOnRises _ s
  · exact movesOnRises_of_rx_eq rfl

/-- A reset takes both clocks to their idle level, and the receiver sees a low one rise (R116). -/
theorem resetStep_movesOnRises (s : State) : MovesOnRises s (resetStep s) :=
  ⟨fun hne => ⟨Bool.eq_false_iff.mpr fun high => hne (if_pos high), rfl⟩,
    fun hne => ⟨Bool.eq_false_iff.mpr fun high => hne (if_pos high), rfl⟩⟩

/-- Settles O23: by the four ticks of R31, of which only a reset and a tick of a transaction move the receiver. -/
theorem receiverChangesOnlyOnRisingEdges : Obligations.ReceiverChangesOnlyOnRisingEdges := by
  intro s t h
  obtain ⟨-, ⟨-, rfl⟩ | ⟨-, -, ⟨-, rfl⟩ | ⟨-, u, hu, rfl⟩ | ⟨-, -, rfl⟩⟩⟩ := step_cases h
  · exact resetStep_movesOnRises s
  · exact txEvent_movesOnRises s
  · obtain ⟨-, -, rx⟩ := acceptWord_frame hu
    exact movesOnRises_of_rx_eq rx
  · exact movesOnRises_of_rx_eq rfl

/-! ### What the transmitter and the encoder share (R70, R97) -/

/-- The lines after a write depend on the lines before it alone. -/
theorem lineWrite_lines_congr (w : LineWrite) {s s' : State} (h : s.lines = s'.lines) :
    (lineWrite w s).lines = (lineWrite w s').lines := by
  cases w <;> simp [h]

/-- The receiver after a write depends on the lines and the receiver before it alone. -/
theorem lineWrite_rx_congr (w : LineWrite) {s s' : State} (hl : s.lines = s'.lines) (hr : s.rx = s'.rx) :
    (lineWrite w s).rx = (lineWrite w s').rx := by
  cases w <;> simp [hl, hr]

/-- The lines after a tick's event depend on T_PHASE, the sequencer and the lines alone. -/
theorem txEvent_lines_congr {s s' : State} (hT : s.cfg.tPhase = s'.cfg.tPhase) (ht : s.tx = s'.tx) (hl : s.lines = s'.lines) :
    (txEvent s).lines = (txEvent s').lines := by
  unfold txEvent
  rw [hT, ht]
  split
  · exact lineWrite_lines_congr _ hl
  · exact hl

/-- Only TX and CLR write the sequencer (R61). -/
theorem ExecMove.tx_eq {i : Instr} {s t : State} (move : ExecMove i s t) (htx : ∀ seg dig, i ≠ .tx seg dig)
    (hclr : ∀ dig, i ≠ .clr dig) : t.tx = s.tx := by
  cases move with
  | started seg dig hi =>
    rcases hi with rfl | ⟨rfl, -⟩
    · exact absurd rfl (htx seg dig)
    · exact absurd rfl (hclr dig)
  | raised c => rw [raiseCmdError_eq]
  | _ => rfl

/-- No command writes a line (R21). -/
theorem ExecMove.lines_eq {i : Instr} {s t : State} (move : ExecMove i s t) : t.lines = s.lines := by
  rw [move.frame]

/-- Settles O35: the moves of the commands, and the frame of the sequencer's tick. -/
theorem transmitterIsIsolated : Obligations.TransmitterIsIsolated := by
  refine ⟨fun i s s' hi lit => ?_, fun s s' hs hs' ht ht' hT htx hl => ?_, fun i s hi => ?_⟩
  · have frame (seg dig : Byte) : txFrame s.cfg seg dig = txFrame s'.cfg seg dig := by
      rw [txFrame, txFrame, segw, segw, lit]
    rcases hi with ⟨seg, dig, rfl⟩ | ⟨dig, rfl⟩
    · exact ⟨_, _, exec_tx seg dig s, exec_tx seg dig s', by simp [frame], rfl, fun _ => rfl⟩
    · exact ⟨_, _, exec_clr dig s, exec_clr dig s', by simp [frame], rfl, fun _ => rfl⟩
  · have next := step_of_ticks hs ht
    obtain ⟨enc, cmdErr, resp, -⟩ := step_of_ticks_shown ht next
    refine ⟨_, _, next, step_of_ticks hs' ht', ?_, ?_, enc, cmdErr, resp⟩
    · simp [hT, htx]
    · exact txEvent_lines_congr hT htx hl
  · obtain ⟨t, ht, move⟩ := exec_move i s
    refine ⟨t, ht, move.tx_eq ?_ ?_, move.lines_eq⟩
    all_goals
      intros
      rintro rfl
      simp at hi

end Sys2Proof.Machine
end

section
/-! PROOFS of 40_transmitter.md: a transaction as its 50 events, and the ticks that perform them (R65 to R68, R74, R75). -/

namespace Sys2Proof.Machine

/-! ### The first events of a transaction, without time (R65) -/

/-- The first `k` line writes of a transaction of frame `f`. -/
def performEvents (f : Frame) : Nat → State → State
  | 0, s => s
  | k + 1, s => lineWrite (lineEvent f k) (performEvents f k s)

/-- The receiver after the first `k` events of a transaction of frame `f` that found it as `r₀`: SR holds the bits shifted so far
below its older bits, and LAT waits for the last event (R75). -/
structure ShiftedOnto (r₀ : Receiver) (f : Frame) (k : Nat) (r : Receiver) : Prop where
  sr  : r.sr.toNat = (r₀.sr.toNat * 2 ^ min 16 (k / 3) + f.toNat / 2 ^ (16 - min 16 (k / 3))) % 2 ^ 16
  lat : k < 50 → r.lat = r₀.lat

theorem shiftedOnto_zero (r₀ : Receiver) (f : Frame) : ShiftedOnto r₀ f 0 r₀ where
  sr := by
    have := f.isLt
    have := r₀.sr.isLt
    simp only [Nat.zero_div, Nat.min_zero, Nat.sub_zero, pow_zero]
    omega
  lat := fun _ => rfl

/-- One more bit below the bits shifted so far (R65, R73). -/
theorem shift_onto (r f : Nat) {i : Nat} (hi : i < 16) :
    (2 * ((r * 2 ^ i + f / 2 ^ (16 - i)) % 2 ^ 16) + f / 2 ^ (15 - i) % 2) % 2 ^ 16 =
      (r * 2 ^ (i + 1) + f / 2 ^ (16 - (i + 1))) % 2 ^ 16 := by
  rw [show 16 - i = 15 - i + 1 by omega, show 16 - (i + 1) = 15 - i by omega, Nat.pow_succ, ← Nat.div_div_eq_div_mul,
    Nat.pow_succ 2 i, ← Nat.mul_assoc]
  omega

/-- Event `k` takes the receiver from `k` events done to `k + 1`. -/
theorem ShiftedOnto.event {s : State} {r₀ : Receiver} {f : Frame} {k : Nat} (hk : k < 50) (hl : LinesAfter f k s.lines)
    (h : ShiftedOnto r₀ f k s.rx) : ShiftedOnto r₀ f (k + 1) (lineWrite (lineEvent f k) s).rx := by
  have keep (hp : min 16 ((k + 1) / 3) = min 16 (k / 3)) : ShiftedOnto r₀ f (k + 1) s.rx :=
    ⟨by rw [hp]; exact h.sr, fun _ => h.lat hk⟩
  rcases event_kinds hk with ⟨i, hi, rfl⟩ | ⟨i, hi, rfl⟩ | ⟨i, hi, rfl⟩ | rfl | rfl
  · rw [lineEvent_data f hi]
    exact keep (by omega)
  · rw [lineEvent_fall f hi, lineWrite_sclk_rx, Receiver.onSclk_fall]
    exact keep (by omega)
  · have low : s.lines.sclk = false := hl.sclk.mpr (by omega)
    have bit : s.lines.data.toNat = f.toNat / 2 ^ (15 - i) % 2 := by
      rw [hl.data (by omega), frame_bit, show min 15 ((3 * i + 2 - 1) / 3) = i by omega]
    have taken := h.sr
    rw [show min 16 ((3 * i + 2) / 3) = i by omega] at taken
    rw [lineEvent_rise f hi, lineWrite_sclk_rx, Receiver.onSclk_rise low]
    refine ⟨?_, fun _ => h.lat hk⟩
    rw [shifted_toNat, bit, taken, show min 16 ((3 * i + 2 + 1) / 3) = i + 1 by omega, shift_onto _ _ hi]
  · rw [lineEvent_latchLow, lineWrite_rclk_rx, Receiver.onRclk_fall]
    exact keep (by decide)
  · have low : s.lines.rclk = false := hl.rclk.mpr rfl
    rw [lineEvent_latchHigh, lineWrite_rclk_rx, Receiver.onRclk_rise low]
    exact ⟨h.sr, fun late => absurd late (by decide)⟩

/-- What the first `k` events leave on the lines and in the receiver, from idle clocks. -/
theorem performEvents_after {s : State} (f : Frame) (hs : s.lines.sclk = true) (hr : s.lines.rclk = true) {k : Nat}
    (hk : k ≤ 50) :
    LinesAfter f k (performEvents f k s).lines ∧ RxAfter f k (performEvents f k s).rx ∧
      ShiftedOnto s.rx f k (performEvents f k s).rx := by
  induction k with
  | zero => exact ⟨linesAfter_zero f hs hr, rxAfter_zero f s.rx, shiftedOnto_zero s.rx f⟩
  | succ k ih =>
    obtain ⟨lines, rx, shifted⟩ := ih (by omega)
    exact ⟨lines.event hk, rx.event hk lines, shifted.event hk lines⟩

/-- After the last event SR and LAT both hold the frame (R74). -/
theorem RxAfter.all_done {f : Frame} {r : Receiver} (h : RxAfter f 50 r) : r = ⟨f, f⟩ := by
  obtain ⟨sr, lat⟩ := r
  have whole : sr = f := BitVec.eq_of_toNat_eq (by simpa [Nat.mod_eq_of_lt sr.isLt] using h.sr)
  have latched : lat = f := h.lat rfl
  rw [whole, latched]

/-! ### One tick of the sequencer (R66) -/

/-- How many events the first `n` ticks of a transaction perform, one every `T` ticks. -/
def eventsAt (T n : Nat) : Nat := (n + T - 1) / T

theorem eventsDone_eq (s : State) : eventsDone s = eventsAt s.cfg.tPhase s.tx.cnt := rfl

theorem eventsAt_zero {T : Nat} (hT : 1 ≤ T) : eventsAt T 0 = 0 := events_start hT

/-- The events of `k` phases. -/
theorem eventsAt_mul {T : Nat} (hT : 1 ≤ T) (k : Nat) : eventsAt T (k * T) = k := by
  obtain ⟨done, -⟩ := events_at hT (Nat.mul_mod_left k T)
  exact done.trans (Nat.mul_div_cancel k hT)

theorem eventsAt_mono {T m n : Nat} (h : m ≤ n) : eventsAt T m ≤ eventsAt T n := Nat.div_le_div_right (by omega)

theorem eventsAt_le {T n k : Nat} (hT : 1 ≤ T) (h : n ≤ k * T) : eventsAt T n ≤ k :=
  (eventsAt_mono h).trans_eq (eventsAt_mul hT k)

/-- A tick whose count is a multiple of T_PHASE performs the event of that multiple. -/
theorem txEvent_of_mul {s : State} {k : Nat} (hT : 1 ≤ s.cfg.tPhase) (h : s.tx.cnt = k * s.cfg.tPhase) :
    txEvent s = lineWrite (lineEvent s.tx.frame k) s := by
  rw [txEvent, h, Nat.mul_mod_left, if_pos rfl, Nat.mul_div_cancel k hT]

/-- A tick between two events performs none. -/
theorem txEvent_between {s : State} (h : s.tx.cnt % s.cfg.tPhase ≠ 0) : txEvent s = s := if_neg h

/-- The sequencer after `n` ticks of a transaction of frame `f` (R66, R68). -/
def txAfter (T : Nat) (f : Frame) (n : Nat) : Tx := if n < 50 * T then ⟨.busy, f, n⟩ else ⟨.idle, f, 0⟩

theorem txAfter_busy {T n : Nat} (f : Frame) (h : n < 50 * T) : txAfter T f n = ⟨.busy, f, n⟩ := if_pos h

theorem txAfter_last (T : Nat) (f : Frame) : txAfter T f (50 * T) = ⟨.idle, f, 0⟩ := if_neg (Nat.lt_irrefl _)

theorem txCount_txAfter {T n : Nat} (f : Frame) (h : n < 50 * T) : txCount T (txAfter T f n) = txAfter T f (n + 1) := by
  rw [txAfter_busy f h]
  by_cases last : n = 50 * T - 1
  · rw [txCount_last last, show n + 1 = 50 * T by omega, txAfter_last]
  · rw [txCount_other last, txAfter_busy f (by omega)]

/-- The state `n` ticks into a transaction that begins in `s` and meets no reset. -/
def afterTicks (n : Nat) (s : State) : State :=
  { s with
    lines     := (performEvents s.tx.frame (eventsAt s.cfg.tPhase n) s).lines
    rx        := (performEvents s.tx.frame (eventsAt s.cfg.tPhase n) s).rx
    tx        := txAfter s.cfg.tPhase s.tx.frame n
    stallLeft := s.stallLeft - n
    inputs    := s.inputs.drop n
    draws     := s.draws + n }

/-- The event of a tick, `n` ticks into a transaction, is the next of its events. -/
theorem txEvent_afterTicks {s : State} {n : Nat} (hT : 1 ≤ s.cfg.tPhase) (hn : n < 50 * s.cfg.tPhase) :
    (txEvent (afterTicks n s)).lines = (performEvents s.tx.frame (eventsAt s.cfg.tPhase (n + 1)) s).lines ∧
    (txEvent (afterTicks n s)).rx = (performEvents s.tx.frame (eventsAt s.cfg.tPhase (n + 1)) s).rx := by
  have cnt : (afterTicks n s).tx = ⟨.busy, s.tx.frame, n⟩ := txAfter_busy _ hn
  by_cases he : n % s.cfg.tPhase = 0
  · obtain ⟨done, next⟩ := events_at hT he
    have event : txEvent (afterTicks n s) = lineWrite (lineEvent s.tx.frame (n / s.cfg.tPhase)) (afterTicks n s) := by
      have mul : (afterTicks n s).tx.cnt = n / s.cfg.tPhase * s.cfg.tPhase := by
        rw [cnt, Nat.div_mul_cancel (Nat.dvd_of_mod_eq_zero he)]
      rw [txEvent_of_mul (s := afterTicks n s) hT mul, cnt]
    rw [event, eventsAt, next, performEvents, ← done]
    exact ⟨lineWrite_lines_congr _ rfl, lineWrite_rx_congr _ rfl rfl⟩
  · rw [txEvent_between (by rw [cnt]; exact he), eventsAt, events_between hT he]
    exact ⟨rfl, rfl⟩

/-- The frame of the sequencer's tick: sequencer, lines and receiver. -/
theorem txTick_frame (s : State) :
    txTick s = { s with tx := (txTick s).tx, lines := (txTick s).lines, rx := (txTick s).rx } := by
  have write (w : LineWrite) : lineWrite w s = { s with lines := (lineWrite w s).lines, rx := (lineWrite w s).rx } := by
    cases w <;> rfl
  unfold txTick txEvent
  split
  · rw [write]
  · rfl

/-! ### Runs of ticks -/

theorem NoReset.mono {m n : Nat} {s : State} (h : NoReset n s) (hm : m ≤ n) : NoReset m s :=
  fun p hp => h p (List.take_subset_take_left s.inputs hm hp)

/-- No reset comes on the port after `n` ticks of a run. -/
theorem NoReset.port_afterTicks {n : Nat} {s : State} (h : NoReset (n + 1) s) : (afterTicks n s).port.rst = false := by
  apply port_of_forall_take (P := fun p => p.rst = false) (n := 0) rfl
  intro p hp
  apply h p
  rw [show (afterTicks n s).inputs = s.inputs.drop n from rfl, List.take_drop] at hp
  exact List.mem_of_mem_drop hp

theorem afterTicks_zero {s : State} (hT : 1 ≤ s.cfg.tPhase) (hb : s.tx.state = .busy) (hc : s.tx.cnt = 0) :
    afterTicks 0 s = s := by
  have tx : txAfter s.cfg.tPhase s.tx.frame 0 = s.tx := by
    rw [txAfter_busy _ (by omega), ← hb, ← hc]
  rw [afterTicks, eventsAt_zero hT, tx]
  rfl

/-- One more tick of a transaction. -/
theorem step_afterTicks {s : State} {n : Nat} (hs : Sound s) (hr : NoReset (n + 1) s) (hn : n < 50 * s.cfg.tPhase) :
    step (afterTicks n s) = .next (afterTicks (n + 1) s) := by
  obtain ⟨-, -, -, -, hT⟩ := wf_bounds hs.1
  obtain ⟨lines, rx⟩ := txEvent_afterTicks hT hn
  have tx : (txTick (afterTicks n s)).tx = txAfter s.cfg.tPhase s.tx.frame (n + 1) := by
    rw [txTick_tx]
    exact txCount_txAfter s.tx.frame hn
  have ticks : Ticks (afterTicks n s) := ⟨hr.port_afterTicks, congrArg Tx.state (txAfter_busy s.tx.frame hn)⟩
  rw [step_of_ticks (s := afterTicks n s) hs ticks, txTick_frame, tx, txTick_lines, txTick_rx, lines, rx]
  simp [afterTicks, endTick, stallTick, Nat.sub_sub, Nat.add_assoc]

/-- The whole of a transaction: `n` ticks after it began the machine stands as `afterTicks` says (R66). -/
theorem run_transaction {s : State} (hs : Sound s) (hb : s.tx.state = .busy) (hc : s.tx.cnt = 0) {n : Nat} (hr : NoReset n s)
    (hn : n ≤ 50 * s.cfg.tPhase) : run n s = .next (afterTicks n s) := by
  induction n with
  | zero =>
    obtain ⟨-, -, -, -, hT⟩ := wf_bounds hs.1
    rw [run_zero, afterTicks_zero hT hb hc]
  | succ n ih =>
    rw [run_add (ih (hr.mono (Nat.le_succ n)) (by omega)) 1, run_succ (step_afterTicks hs hr hn), run_zero]

/-- Settles O36: the event of each multiple of T_PHASE, and the count of a run. -/
theorem sequencerTickPerformsTheEvents : Obligations.SequencerTickPerformsTheEvents := by
  refine ⟨fun s hs ht => ?_, fun s n hs hb hc hr hn => ?_⟩
  · obtain ⟨-, -, -, -, hT⟩ := wf_bounds hs.1
    have lines : (endTick (stallTick (txTick s))).lines = (txEvent s).lines := rfl
    refine ⟨_, step_of_ticks hs ht, fun i hi h => lines.trans ?_, fun i hi h => lines.trans ?_, fun i hi h => lines.trans ?_,
      fun h => lines.trans ?_, fun h => lines.trans ?_, fun h => lines.trans ?_, fun h => ?_, fun h => ?_⟩
    · rw [txEvent_of_mul hT h, lineEvent_data _ hi, lineWrite_data_lines]
    · rw [txEvent_of_mul hT h, lineEvent_fall _ hi, lineWrite_sclk_lines]
    · rw [txEvent_of_mul hT h, lineEvent_rise _ hi, lineWrite_sclk_lines]
    · rw [txEvent_of_mul hT h, lineEvent_latchLow, lineWrite_rclk_lines]
    · rw [txEvent_of_mul hT h, lineEvent_latchHigh, lineWrite_rclk_lines]
    · rw [txEvent_between h]
    · simp [txCount_last h]
    · simp [txCount_other h, ht.2]
  · exact ⟨_, run_transaction hs hb hc hr hn.le, txAfter_busy s.tx.frame hn⟩

/-- The end of a transaction that begins with idle clocks (R67, R68, R74). -/
theorem afterTicks_last {s : State} (hT : 1 ≤ s.cfg.tPhase) (hf : Fresh s) :
    afterTicks (50 * s.cfg.tPhase) s = { s with
      rx := ⟨s.tx.frame, s.tx.frame⟩,
      tx := ⟨.idle, s.tx.frame, 0⟩,
      lines := ⟨s.tx.frame.getLsbD 0, true, true⟩,
      stallLeft := s.stallLeft - 50 * s.cfg.tPhase,
      inputs := s.inputs.drop (50 * s.cfg.tPhase),
      draws := s.draws + 50 * s.cfg.tPhase } := by
  obtain ⟨-, -, sclk, rclk⟩ := hf
  obtain ⟨lines, rx, -⟩ := performEvents_after s.tx.frame sclk rclk (Nat.le_refl 50)
  rw [afterTicks, eventsAt_mul hT, txAfter_last, lines.all_done, rx.all_done]

/-- Settles O38: the run of a transaction, busy through its ticks, to its end. -/
theorem transactionDeliversTheFrame : Obligations.TransactionDeliversTheFrame := by
  intro s hs hf hr
  obtain ⟨-, -, -, -, hT⟩ := wf_bounds hs.1
  have ⟨hb, hc, _⟩ := hf
  refine ⟨fun n hn => ⟨_, run_transaction hs hb hc (hr.mono hn.le) hn.le, (busy_iff _).mpr (.inl ?_)⟩, ?_⟩
  · exact congrArg Tx.state (txAfter_busy s.tx.frame hn)
  · rw [run_transaction hs hb hc hr (Nat.le_refl _), afterTicks_last hT hf]

/-- Settles O40: the run of a transaction, whose first `49 * T_PHASE` ticks perform at most 49 events. -/
theorem latchHoldsUntilTheLastEvent : Obligations.LatchHoldsUntilTheLastEvent := by
  intro s n hs hf hr hn
  obtain ⟨-, -, -, -, hT⟩ := wf_bounds hs.1
  obtain ⟨hb, hc, sclk, rclk⟩ := hf
  have early : eventsAt s.cfg.tPhase n ≤ 49 := eventsAt_le hT hn
  obtain ⟨-, -, shifted⟩ := performEvents_after s.tx.frame sclk rclk (early.trans (by decide))
  have bits : bitsShifted (afterTicks n s) = min 16 (eventsAt s.cfg.tPhase n / 3) := by
    rw [bitsShifted, eventsDone_eq]
    show min 16 (eventsAt s.cfg.tPhase (txAfter s.cfg.tPhase s.tx.frame n).cnt / 3) = _
    rw [txAfter_busy _ (by omega)]
  refine ⟨_, run_transaction hs hb hc hr (by omega), shifted.lat (by omega), ?_⟩
  rw [bits]
  exact shifted.sr

/-- From an accepted word that starts a transaction of frame `f` to its end (R61, R74). -/
theorem run_from_acceptance {s : State} {f : Frame} (inv : Inv s) (ha : Accepts s)
    (starts : acceptWord s.port.word s = .next (startTx f s)) (hr : NoReset (1 + 50 * s.cfg.tPhase) s) :
    ∃ t, run (1 + 50 * s.cfg.tPhase) s = .next t ∧ t.tx.state = .idle ∧ t.rx = ⟨f, f⟩ ∧
      t.stallLeft = Config.stallTicks s.draws - 50 * s.cfg.tPhase := by
  have ⟨_, hi, _⟩ := ha
  obtain ⟨-, idle⟩ := (txInv_idle hi).mp inv.tx
  have first : step s = .next (endTick (drawStall (startTx f s))) := by
    rw [step_of_accepts ⟨inv.cfg, inv.cmd⟩ ha, starts, endAccept]
  have fresh : Fresh (endTick (drawStall (startTx f s))) := ⟨rfl, rfl, congrArg Lines.sclk idle, congrArg Lines.rclk idle⟩
  rw [Nat.add_comm] at hr
  obtain ⟨-, whole⟩ := transactionDeliversTheFrame _ (step_sound first) fresh (forall_take_tail hr)
  rw [Nat.add_comm, run_succ first]
  exact ⟨_, whole, rfl, rfl, rfl⟩

/-- Settles O39: TX's word starts the transaction of its frame, whose halves the receiver shows. -/
theorem txShowsSegmentsOnDigits : Obligations.TxShowsSegmentsOnDigits := by
  intro s seg dig inv ha hw hr
  have starts : acceptWord s.port.word s = .next (startTx (txFrame s.cfg seg dig) s) := by
    rw [hw, acceptWord_of_ok (decode_tx_row seg dig), exec_tx]
  obtain ⟨t, ht, idle, rx, stall⟩ := run_from_acceptance inv ha starts hr
  refine ⟨t, ht, idle, ?_, ?_, fun short => ?_⟩
  · rw [rx]
    exact BitVec.extractLsb'_append_eq_right
  · rw [rx]
    exact BitVec.extractLsb'_append_eq_left
  · simp [State.cmdReady, State.busy, State.stall, idle, stall, Nat.sub_eq_zero_of_le short]

end Sys2Proof.Machine
end

section
/-! PROOFS of 40_transmitter.md: the edges of a transaction (R69). -/

namespace Sys2Proof.Machine

/-! ### Edges along a list of levels -/

/-- A line falls where its complement rises. -/
theorem falls_eq_rises_not (l : List Bool) : falls l = rises (l.map (!·)) := by
  fun_induction falls l with
  | case1 => rfl
  | case2 => rfl
  | case3 a b l ih => simp [rises, ih]

/-- One more level at the end of a list. -/
theorem rises_append_pair (l : List Bool) (a b : Bool) :
    rises (l ++ [a, b]) = rises (l ++ [a]) + if !a && b then 1 else 0 := by
  fun_induction rises l with
  | case1 => simp [rises]
  | case2 c => simp [rises]
  | case3 c d l ih =>
    simp only [List.cons_append] at ih ⊢
    rw [rises, rises, ih, Nat.add_assoc]

/-- The rises along the levels `g 0`, ..., `g n`, level by level. -/
theorem rises_range_succ (g : Nat → Bool) (n : Nat) :
    rises ((List.range (n + 2)).map g) = rises ((List.range (n + 1)).map g) + if !g n && g (n + 1) then 1 else 0 := by
  simp only [List.range_succ, List.map_append, List.map_cons, List.map_nil, List.append_assoc, List.cons_append, List.nil_append]
  exact rises_append_pair _ _ _

/-- A line has no other edges when each of its levels stays for some ticks: `e` says which level stands after each tick. -/
theorem rises_stutter (g : Nat → Bool) {e : Nat → Nat} (h0 : e 0 = 0) (hs : ∀ n, e (n + 1) = e n ∨ e (n + 1) = e n + 1)
    (n : Nat) :
    rises ((List.range (n + 1)).map fun i => g (e i)) = rises ((List.range (e n + 1)).map g) := by
  induction n with
  | zero => rw [h0]; simp [h0]
  | succ n ih =>
    rw [rises_range_succ, ih]
    rcases hs n with stays | moves
    · rw [stays]
      simp
    · rw [moves, rises_range_succ]

/-! ### The levels of a transaction -/

/-- SCLK after the first `k` events of a transaction (R65). -/
def sclkAfter (k : Nat) : Bool := !decide (k % 3 = 2 ∧ k < 48)

/-- RCLK after the first `k` events of a transaction (R65). -/
def rclkAfter (k : Nat) : Bool := !decide (k = 49)

theorem LinesAfter.sclk_eq {f : Frame} {k : Nat} {l : Lines} (h : LinesAfter f k l) : l.sclk = sclkAfter k :=
  (eq_not_decide_iff _ _).mpr h.sclk

theorem LinesAfter.rclk_eq {f : Frame} {k : Nat} {l : Lines} (h : LinesAfter f k l) : l.rclk = rclkAfter k :=
  (eq_not_decide_iff _ _).mpr h.rclk

/-- A tick performs one event or none. -/
theorem eventsAt_succ {T : Nat} (hT : 1 ≤ T) (n : Nat) :
    eventsAt T (n + 1) = eventsAt T n ∨ eventsAt T (n + 1) = eventsAt T n + 1 := by
  by_cases he : n % T = 0
  · obtain ⟨done, next⟩ := events_at hT he
    exact .inr (by rw [eventsAt, eventsAt, done, next])
  · exact .inl (events_between hT he)

/-- The rises of a line over a whole transaction are those over its 50 events. -/
theorem rises_of_transaction (g : Nat → Bool) {T : Nat} (hT : 1 ≤ T) :
    rises ((List.range (50 * T + 1)).map fun i => g (eventsAt T i)) = rises ((List.range 51).map g) := by
  rw [rises_stutter g (eventsAt_zero hT) (eventsAt_succ hT), eventsAt_mul hT]

/-- The lines along a run whose states are known. -/
theorem linesTrace_of_run {s : State} {g : Nat → State} {n : Nat} (h : ∀ i ≤ n, run i s = .next (g i)) :
    linesTrace n s = (List.range (n + 1)).map fun i => (g i).lines := by
  induction n generalizing s g with
  | zero =>
    have start := h 0 (Nat.le_refl 0)
    cases start
    rfl
  | succ n ih =>
    have start := h 0 (Nat.zero_le _)
    cases start
    obtain ⟨u, first, last⟩ := run_succ_next (h 1 (by omega))
    have later : ∀ i ≤ n, run i u = .next (g (i + 1)) := fun i hi => (run_succ first i).symm.trans (h (i + 1) (by omega))
    rw [linesTrace, first, listNext_next, ih later, List.range_succ_eq_map (n := n + 1), List.map_cons, List.map_map]
    rfl

/-- The lines `i` ticks into a transaction that begins with idle clocks. -/
theorem linesAfter_afterTicks {s : State} (hT : 1 ≤ s.cfg.tPhase) (hf : Fresh s) {i : Nat} (hi : i ≤ 50 * s.cfg.tPhase) :
    LinesAfter s.tx.frame (eventsAt s.cfg.tPhase i) (afterTicks i s).lines := by
  obtain ⟨-, -, sclk, rclk⟩ := hf
  obtain ⟨lines, -⟩ := performEvents_after s.tx.frame sclk rclk (eventsAt_le hT hi)
  exact lines

/-- The levels of one line along a transaction that begins with idle clocks, where `g` says what the events leave it at. -/
theorem levels_transaction {s : State} (hs : Sound s) (hf : Fresh s) (hr : NoReset (50 * s.cfg.tPhase) s) {level : Lines → Bool}
    {g : Nat → Bool} (hg : ∀ {f k l}, LinesAfter f k l → level l = g k) :
    (linesTrace (50 * s.cfg.tPhase) s).map level =
      (List.range (50 * s.cfg.tPhase + 1)).map fun i => g (eventsAt s.cfg.tPhase i) := by
  have ⟨hb, hc, _⟩ := hf
  obtain ⟨-, -, -, -, hT⟩ := wf_bounds hs.1
  rw [linesTrace_of_run fun i hi => run_transaction hs hb hc (hr.mono hi) hi, List.map_map]
  refine List.map_congr_left fun i hi => hg (linesAfter_afterTicks hT hf ?_)
  exact Nat.lt_succ_iff.mp (List.mem_range.mp hi)

/-- Settles O41: a line's levels along a transaction are those along its events, each standing for some ticks. -/
theorem transactionHasItsEdges : Obligations.TransactionHasItsEdges := by
  intro s hs hf hr
  obtain ⟨-, -, -, -, hT⟩ := wf_bounds hs.1
  have sclk := levels_transaction hs hf hr LinesAfter.sclk_eq
  have rclk := levels_transaction hs hf hr LinesAfter.rclk_eq
  refine ⟨?_, ?_, ?_, ?_, fun l hl => ?_⟩
  · rw [sclk, rises_of_transaction sclkAfter hT]
    decide
  · rw [sclk, falls_eq_rises_not, List.map_map]
    exact (rises_of_transaction (fun k => !sclkAfter k) hT).trans (by decide)
  · rw [rclk, rises_of_transaction rclkAfter hT]
    decide
  · rw [rclk, falls_eq_rises_not, List.map_map]
    exact (rises_of_transaction (fun k => !rclkAfter k) hT).trans (by decide)
  · have level := List.mem_map_of_mem (f := (·.rclk)) hl
    rw [List.map_take, rclk, ← List.map_take, List.take_range, List.mem_map] at level
    obtain ⟨i, hi, level⟩ := level
    have early : eventsAt s.cfg.tPhase i ≤ 48 := by
      have := List.mem_range.mp hi
      exact eventsAt_le hT (by omega)
    rw [← level, rclkAfter, decide_eq_false (by omega)]
    rfl

end Sys2Proof.Machine
end

section
/-! PROOFS of 41_encoder.md: the commands by ENC_MODE (R87 to R89, R96). -/

namespace Sys2Proof.Machine

/-! ### ENC_CHAR and ENC_END by mode -/

/-- A recorded SEQUENCE error, field by field (R101, R102). -/
theorem raiseCmdError_sequence (s : State) :
    raiseCmdError .sequence s = { s with cmdErr := if s.cmdErr = 0 then 3 else s.cmdErr } := raiseCmdError_eq .sequence s

section
variable {s : State}

theorem exec_encChar_opened (h : s.enc.mode = .opened) (c : Byte) :
    exec (.encChar c) s = .next { s with enc := encStep s.cfg c s.enc } := by simp [exec, execEncChar, h]

theorem exec_encChar_err (h : s.enc.mode = .err) (c : Byte) : exec (.encChar c) s = .next s := by
  simp [exec, execEncChar, h]

/-- A character with no session to take it is a SEQUENCE error (R87, R96). -/
theorem exec_encChar_sequence (h : s.enc.mode = .idle ∨ s.enc.mode = .done) (c : Byte) :
    exec (.encChar c) s = .next { s with cmdErr := if s.cmdErr = 0 then 3 else s.cmdErr } := by
  rw [← raiseCmdError_sequence]
  rcases h with h | h <;> simp [exec, execEncChar, h]

theorem exec_encEnd_opened (h : s.enc.mode = .opened) :
    exec .encEnd s = .next { s with enc := encEnd s.cfg s.enc } := by simp [exec, execEncEnd, h]

theorem exec_encEnd_err (h : s.enc.mode = .err) : exec .encEnd s = .next s := by simp [exec, execEncEnd, h]

/-- ENC_END with no session to end is a SEQUENCE error (R88, R96). -/
theorem exec_encEnd_sequence (h : s.enc.mode = .idle ∨ s.enc.mode = .done) :
    exec .encEnd s = .next { s with cmdErr := if s.cmdErr = 0 then 3 else s.cmdErr } := by
  rw [← raiseCmdError_sequence]
  rcases h with h | h <;> simp [exec, execEncEnd, h]

end

/-! ### The end of a session -/

/-- The end-of-text check with no escape open (R88). -/
theorem encClose_of_closed {e : Enc} (ho : e.mode = .opened) (hs : e.escSt = .none) : encClose e = { e with mode := .done } := by
  simp [encClose, ho, hs]

/-- The end-of-text check with an escape open (R88). -/
theorem encClose_of_open_escape {e : Enc} (ho : e.mode = .opened) (hs : e.escSt ≠ .none) :
    encClose e = encFail .escape e := by
  simp [encClose, ho, hs]

/-- Settles O48: ENC_END is its row of the decode table, its mode, and the three ends of the check. -/
theorem encEndClosesTheSession : Obligations.EncEndClosesTheSession := by
  refine ⟨⟨decode_encEnd_row 0 0, fun a b s h => ?_⟩, fun s => ⟨exec_encEnd_err, exec_encEnd_sequence, fun ho => ?_⟩⟩
  · exact acceptWord_of_error ((decode_encEnd_row a b).trans (if_pos h)) s
  · refine ⟨_, exec_encEnd_opened ho, rfl, ?_⟩
    simp only [encEnd, encPad_eq_encSteps]
    exact ⟨encClose_of_closed, encClose_of_open_escape, encClose_of_not_opened⟩

/-! ### A finished session (R96) -/

/-- Outside an open session only a command that begins one does anything to the encoder (R95, R96). -/
theorem encOfWord_of_not_opened {cfg : Config} {w : Word} {e : Enc} (h : e.mode ≠ .opened) :
    encOfWord cfg w e = e ∨ decode w = .ok .encBeginA ∨ ∃ b, decode w = .ok (.encBegin b) := by
  unfold encOfWord
  cases hd : decode w with
  | error c => exact .inl rfl
  | ok i =>
    cases i with
    | encBegin b => exact .inr (.inr ⟨b, rfl⟩)
    | encBeginA => exact .inr (.inl rfl)
    | encChar c => exact .inl (encStep_of_not_opened h)
    | encEnd => exact .inl (encEnd_of_not_opened h)
    | nop | tx | clr | rdMsg | errclr => exact .inl rfl

/-- Settles O25: a tick is a reset, or accepts a word, or leaves the encoder alone. -/
theorem onlyANewSessionOrResetLeavesDoneOrErr : Obligations.OnlyANewSessionOrResetLeavesDoneOrErr := by
  refine ⟨fun s t h hm => ?_, fun s i hd hi => ?_⟩
  · have notOpened : s.enc.mode ≠ .opened := by rcases hm with hm | hm <;> simp [hm]
    rw [step_enc h]
    cases hr : s.port.rst with
    | true => exact .inr (.inl rfl)
    | false =>
      by_cases ha : Accepts s
      · rw [encEvent_of_accepts ha]
        exact (encOfWord_of_not_opened notOpened).imp_right fun begins => .inr ⟨ha, begins⟩
      · rw [encEvent_of_not_accepts hr ha]
        exact .inl rfl
  · rcases hi with rfl | ⟨c, rfl⟩
    · exact exec_encEnd_sequence (.inr hd)
    · exact exec_encChar_sequence (.inr hd) c

/-! ### RD_MSG (R89) -/

section
variable {s : State} {idx : Byte}

theorem exec_rdMsg_range (h : s.cfg.msgMax ≤ idx.toNat) :
    exec (.rdMsg idx) s = .next { s with cmdErr := if s.cmdErr = 0 then 4 else s.cmdErr } := by
  simp only [exec, execRdMsg, if_pos h, raiseCmdError_eq]
  rfl

theorem exec_rdMsg_inside (hm : idx.toNat < s.cfg.msgMax) (hl : idx.toNat < s.enc.msgLen) :
    exec (.rdMsg idx) s = .next { s with resp := msgRead s.enc idx.toNat } := by
  simp only [exec, execRdMsg, if_neg (Nat.not_le.mpr hm), if_pos hl]

theorem exec_rdMsg_after (hm : idx.toNat < s.cfg.msgMax) (hl : s.enc.msgLen ≤ idx.toNat) :
    exec (.rdMsg idx) s = .next { s with resp := 0x00 } := by
  simp only [exec, execRdMsg, if_neg (Nat.not_le.mpr hm), if_neg (Nat.not_lt.mpr hl)]

/-- The frame of RD_MSG (R45, R89). -/
theorem exec_rdMsg_frame (s : State) (idx : Byte) :
    ∃ t, exec (.rdMsg idx) s = .next t ∧ t = { s with resp := t.resp, cmdErr := t.cmdErr } := by
  rcases Nat.lt_or_ge idx.toNat s.cfg.msgMax with hm | hm
  · rcases Nat.lt_or_ge idx.toNat s.enc.msgLen with hl | hl
    · exact ⟨_, exec_rdMsg_inside hm hl, rfl⟩
    · exact ⟨_, exec_rdMsg_after hm hl, rfl⟩
  · exact ⟨_, exec_rdMsg_range hm, rfl⟩

end

/-- Settles O50: the three ranges of an index; a byte that is listed is the one that MSGBUF reads. -/
theorem rdMsgReadsOneByte : Obligations.RdMsgReadsOneByte := by
  refine ⟨fun a idx s => ⟨decode_rdMsg_row 0 idx, fun ha => ?_⟩, fun s idx => ⟨exec_rdMsg_range, fun hm hl v hv => ?_,
    exec_rdMsg_after, ?_⟩⟩
  · exact acceptWord_of_error ((decode_rdMsg_row a idx).trans (if_pos ha)) s
  · have read : msgRead s.enc idx.toNat = v := by simp [msgRead, hv]
    rw [exec_rdMsg_inside hm hl, read]
  · obtain ⟨t, ht, frame⟩ := exec_rdMsg_frame s idx
    refine ⟨t, ht, frame, fun a => ?_⟩
    rw [frame]

end Sys2Proof.Machine
end

section
/-! PROOFS of 41_encoder.md: what one character does to an open session (R76 to R85). -/

namespace Sys2Proof.Machine

/-! ### Appending a glyph (R77, R79, R85) -/

section
variable {cfg : Config} {c g : Byte} {fb : Bool} {e : Enc}

theorem encEmit_of_full (h : e.msgLen = cfg.msgMax) : encEmit cfg g fb e = encFail .overflow e := if_pos h

theorem encEmit_of_room (h : e.msgLen ≠ cfg.msgMax) : encEmit cfg g fb e =
    { e with msgBuf := e.msgBuf.write e.msgLen g, msgLen := e.msgLen + 1, lastFb := fb } := if_neg h

/-- The frame of emit (R38, R79). -/
theorem encEmit_read {a : Nat} (ha : a ≠ e.msgLen) : (encEmit cfg g fb e).msgBuf.read a = e.msgBuf.read a := by
  unfold encEmit
  split
  · rfl
  · exact Memory.read_write_other _ _ ha

theorem encOrdinary_of_miss (h : resolve cfg c = none) : encOrdinary cfg c e = encFail .lookup e := by
  rw [encOrdinary, h]

theorem encOrdinary_of_glyph (h : resolve cfg c = some (g, fb)) : encOrdinary cfg c e = encEmit cfg g fb e := by
  rw [encOrdinary, h]

theorem encOrdinary_of_full (h : resolve cfg c = some (g, fb)) (hl : e.msgLen = cfg.msgMax) :
    encOrdinary cfg c e = encFail .overflow e := by
  rw [encOrdinary_of_glyph h, encEmit_of_full hl]

theorem encOrdinary_of_room (h : resolve cfg c = some (g, fb)) (hl : e.msgLen ≠ cfg.msgMax) : encOrdinary cfg c e =
    { e with msgBuf := e.msgBuf.write e.msgLen g, msgLen := e.msgLen + 1, lastFb := fb } := by
  rw [encOrdinary_of_glyph h, encEmit_of_room hl]

/-- The frame of a lookup (R38, R85). -/
theorem encOrdinary_read {a : Nat} (ha : a ≠ e.msgLen) : (encOrdinary cfg c e).msgBuf.read a = e.msgBuf.read a := by
  unfold encOrdinary
  split
  · rfl
  · exact encEmit_read ha

/-- The byte that an append leaves at MSGLEN. -/
theorem msgRead_append {e' : Enc} (hb : e'.msgBuf = e.msgBuf.write e.msgLen g) : msgRead e' e.msgLen = g :=
  (msgRead_of_write hb _).trans (if_pos rfl)

/-- The entry of FONT for the character, or else that of the fallback with its flag (R77). -/
theorem resolve_eq_some_iff : resolve cfg c = some (g, fb) ↔
    (cfg.font.lookup c = some g ∧ fb = false) ∨
      (cfg.font.lookup c = none ∧ fb = true ∧ ∃ f, cfg.fallbackChar = some f ∧ cfg.font.lookup f = some g) := by
  unfold resolve fontGlyph
  cases cfg.font.lookup c with
  | some g' => simp [eq_comm]
  | none => cases cfg.fallbackChar <;> simp [eq_comm, and_comm]

/-- No entry of FONT for the character, nor for the fallback (R77). -/
theorem resolve_eq_none (h : fontGlyph cfg c = none) (hf : ∀ f, cfg.fallbackChar = some f → fontGlyph cfg f = none) :
    resolve cfg c = none := by
  unfold resolve
  rw [h]
  cases hc : cfg.fallbackChar with
  | none => rfl
  | some f => simp [hf f hc]

end

/-- Settles O44: an ordinary character is `encOrdinary`, which resolves before it emits. -/
theorem ordinaryCharacterIsLookedUp : Obligations.OrdinaryCharacterIsLookedUp := by
  refine ⟨fun _ _ => rfl, fun _ _ _ _ => resolve_eq_some_iff, fun s c ho hs hp hm => ?_⟩
  refine ⟨_, exec_encChar_opened ho c, ?_⟩
  dsimp only
  rw [encStep_ordinary ho hs hp hm]
  refine ⟨fun g fb found => ⟨fun room => ?_, fun full => ?_⟩, fun miss noFallback => ?_⟩
  · rw [encOrdinary_of_room (resolve_eq_some_iff.mpr found) room]
    exact ⟨ho, rfl, rfl, msgRead_append rfl, rfl, hs⟩
  · exact encOrdinary_of_full (resolve_eq_some_iff.mpr found) full
  · exact encOrdinary_of_miss (resolve_eq_none miss noFallback)

/-! ### The point (R78, R81) -/

/-- A point now is looked up like an ordinary character (R81). -/
abbrev PointIsLookedUp (cfg : Config) (e : Enc) : Prop :=
  e.lastFb = true ∧ cfg.pointAfterFallback = .lookup ∧ compatQ cfg = false

section
variable {cfg : Config} {c : Byte} {e : Enc}

theorem encPoint_of_empty (h : e.msgLen = 0) : encPoint cfg c e = e := if_pos h

/-- What a point does to a message that is not empty (R81). -/
theorem encPoint_of_pos (h : 0 < e.msgLen) : encPoint cfg c e =
    if PointIsLookedUp cfg e then encOrdinary cfg c e
    else msgWrite (e.msgLen - 1) (msgRead e (e.msgLen - 1) ||| dpBit) e := by
  simp [encPoint, h.ne', and_assoc]

/-- The compatibility condition by the entries of FONT (R78). -/
theorem compatQ_iff (cfg : Config) : compatQ cfg = true ↔
    ∃ f g, cfg.fallbackChar = some f ∧ cfg.font.lookup f = some g ∧ g = cfg.undefGlyph ∧ cfg.pointChar.code = 0x2E := by
  unfold compatQ fontGlyph
  cases cfg.fallbackChar <;> simp

end

/-- Settles O45: the three branches of `encPoint`. -/
theorem pointMergesIntoTheLastByte : Obligations.PointMergesIntoTheLastByte := by
  refine ⟨⟨rfl, rfl⟩, compatQ_iff, fun s ho hs => ?_⟩
  refine ⟨_, exec_encChar_opened ho _, fun empty => ?_, fun pos merges => ?_, fun pos hf hl hq => ?_⟩
  · rw [encStep_point ho hs, encPoint_of_empty empty]
  · dsimp only
    rw [encStep_point ho hs, encPoint_of_pos pos, if_neg merges]
    exact ⟨rfl, (msgRead_msgWrite _ _ _ _).trans (if_pos rfl)⟩
  · dsimp only
    rw [encStep_point ho hs, encPoint_of_pos pos, if_pos ⟨hf, hl, hq⟩]
    refine ⟨encOrdinary_of_miss, fun g fb found => ⟨fun room => ?_, encOrdinary_of_full found⟩⟩
    rw [encOrdinary_of_room found room]
    exact ⟨rfl, msgRead_append rfl, rfl⟩

/-! ### Escapes (R82 to R84) -/

section
variable {cfg : Config} {c : Byte} {e : Enc}

theorem encStep_mark_marker (ho : e.mode = .opened) (hs : e.escSt = .mark) :
    encStep cfg cfg.escChar e = encOrdinary cfg cfg.escChar { e with escSt := .none } := by
  rw [encStep_mark ho hs, encAfterMark, if_pos rfl]

theorem encStep_mark_digit (ho : e.mode = .opened) (hs : e.escSt = .mark) (hm : c ≠ cfg.escChar) (hx : isHex c = true) :
    encStep cfg c e = { e with escHi := hexVal c, escSt := .hex1 } := by
  rw [encStep_mark ho hs, encAfterMark, if_neg hm, if_pos hx]

theorem encStep_mark_other (ho : e.mode = .opened) (hs : e.escSt = .mark) (hm : c ≠ cfg.escChar) (hx : isHex c = false) :
    encStep cfg c e = encFail .escape e := by
  rw [encStep_mark ho hs, encAfterMark, if_neg hm, if_neg (Bool.eq_false_iff.mp hx)]

theorem encStep_hex1_digit (ho : e.mode = .opened) (hs : e.escSt = .hex1) (hx : isHex c = true) :
    encStep cfg c e = encEmit cfg (e.escHi ++ hexVal c) false { e with escSt := .none } := by
  rw [encStep_hex1 ho hs, encAfterHex1, if_pos hx]

theorem encStep_hex1_other (ho : e.mode = .opened) (hs : e.escSt = .hex1) (hx : isHex c = false) :
    encStep cfg c e = encFail .escape e := by
  rw [encStep_hex1 ho hs, encAfterHex1, if_neg (Bool.eq_false_iff.mp hx)]

end

/-- The value of the digit that a character writes (R84). -/
theorem WritesDigit.hexVal_toNat {n : Nat} {c : Byte} (h : WritesDigit n c) (hn : n < 16) : (hexVal c).toNat = n := by
  rw [(h.isHex_and_hexVal hn).2, BitVec.toNat_ofNat, Nat.mod_eq_of_lt hn]

/-- The values of the hex digits, range by range (R84). -/
theorem hexVal_ranges (c : Byte) :
    (0x30 ≤ c.toNat → c.toNat ≤ 0x39 → (hexVal c).toNat = c.toNat - 0x30) ∧
    (0x41 ≤ c.toNat → c.toNat ≤ 0x46 → (hexVal c).toNat = c.toNat - 0x37) ∧
    (0x61 ≤ c.toNat → c.toNat ≤ 0x66 → (hexVal c).toNat = c.toNat - 0x57) := by
  have code {k : Nat} (h : k = c.toNat) : c = BitVec.ofNat 8 k := by simp [h]
  refine ⟨fun lo hi => ?_, fun lo hi => ?_, fun lo hi => ?_⟩
  · exact WritesDigit.hexVal_toNat (.inl ⟨by omega, code (by omega)⟩) (by omega)
  · exact WritesDigit.hexVal_toNat (.inr ⟨by omega, .inl (code (by omega))⟩) (by omega)
  · exact WritesDigit.hexVal_toNat (.inr ⟨by omega, .inr (code (by omega))⟩) (by omega)

/-- The byte of two digits as arithmetic (R83). -/
theorem append_toNat (h l : BitVec 4) : (h ++ l : Byte).toNat = 16 * h.toNat + l.toNat := by
  rw [BitVec.toNat_append, ← Nat.shiftLeft_add_eq_or_of_lt l.isLt, Nat.shiftLeft_eq, Nat.mul_comm]

/-- Settles O46: `encStep` in each escape state, by the class of the character. -/
theorem escapesAreRecognised : Obligations.EscapesAreRecognised := by
  refine ⟨fun c => ⟨isHex_iff c, hexVal_ranges c⟩, fun s c hw ho => ?_⟩
  obtain ⟨hp, -⟩ := wf_chars hw
  refine ⟨_, exec_encChar_opened ho c, ?_, fun hs => encStep_mark_digit ho hs, fun hs => encStep_mark_other ho hs,
    ?_, ?_, fun hs => encStep_hex1_other ho hs, ?_⟩
  · rintro hs rfl
    exact encStep_marker ho hs hp
  · rintro hs rfl
    dsimp only
    rw [encStep_mark_marker ho hs]
    refine ⟨fun miss => ?_, fun g fb found room => ?_⟩
    · rw [encOrdinary_of_miss miss]
      exact ⟨rfl, rfl, rfl⟩
    · rw [encOrdinary_of_room (e := { s.enc with escSt := .none }) found room]
      exact ⟨ho, rfl, rfl, msgRead_append rfl, rfl⟩
  · intro hs hx room
    dsimp only
    rw [encStep_hex1_digit ho hs hx, encEmit_of_room (e := { s.enc with escSt := .none }) room]
    exact ⟨ho, rfl, rfl, (congrArg _ (msgRead_append rfl)).trans (append_toNat _ _), rfl⟩
  · rintro full (⟨hs, hx⟩ | ⟨hs, rfl, found⟩)
    · dsimp only
      rw [encStep_hex1_digit ho hs hx, encEmit_of_full (e := { s.enc with escSt := .none }) full]
      exact ⟨rfl, rfl, rfl, rfl⟩
    · obtain ⟨⟨g, fb⟩, found⟩ := Option.isSome_iff_exists.mp found
      dsimp only
      rw [encStep_mark_marker ho hs, encOrdinary_of_full (e := { s.enc with escSt := .none }) found full]
      exact ⟨rfl, rfl, rfl, rfl⟩

/-! ### The shared operation that a character comes to (R80 to R83) -/

/-- The character is a point that merges into the last byte, if there is one (R80, R81). -/
abbrev MergesPoint (cfg : Config) (c : Byte) (e : Enc) : Prop :=
  e.escSt = .none ∧ c = cfg.pointChar.code ∧ ¬PointIsLookedUp cfg e

/-- The ways a character `c` can take in an open session `e`, each with the byte that R93 counts for it or not. -/
inductive EncRoute (cfg : Config) (c : Byte) (e : Enc) : Enc → Prop where
  /-- the escape state moves, or nothing at all -/
  | moved (st : EscState) (hi : BitVec 4) (adds : addsByte cfg c e = false) : EncRoute cfg c e { e with escSt := st, escHi := hi }
  /-- a malformed escape -/
  | malformed : EncRoute cfg c e (encFail .escape e)
  /-- a character is looked up -/
  | looked (d : Byte) (st : EscState) (adds : addsByte cfg c e = true) : EncRoute cfg c e (encOrdinary cfg d { e with escSt := st })
  /-- a literal byte is appended -/
  | literal (g : Byte) (st : EscState) (adds : addsByte cfg c e = true) :
      EncRoute cfg c e (encEmit cfg g false { e with escSt := st })
  /-- the point is merged into the last byte -/
  | merged (merges : MergesPoint cfg c e) (adds : addsByte cfg c e = false) :
      EncRoute cfg c e (msgWrite (e.msgLen - 1) (msgRead e (e.msgLen - 1) ||| dpBit) e)

section
variable {cfg : Config} {c : Byte} {e : Enc} {a : Nat}

/-- A point adds a byte when it is looked up, and only then (R81, R93). -/
theorem addsByte_point (hs : e.escSt = .none) :
    addsByte cfg cfg.pointChar.code e = decide (0 < e.msgLen ∧ PointIsLookedUp cfg e) := by
  rw [Bool.eq_iff_iff]
  simp [addsByte, hs, Nat.pos_iff_ne_zero, and_assoc]

theorem encPoint_route (hs : e.escSt = .none) :
    EncRoute cfg cfg.pointChar.code e (encPoint cfg cfg.pointChar.code e) := by
  have adds := addsByte_point (cfg := cfg) hs
  rcases Nat.eq_zero_or_pos e.msgLen with empty | pos
  · rw [encPoint_of_empty empty]
    exact .moved e.escSt e.escHi (by simp [adds, empty])
  · rw [encPoint_of_pos pos]
    split
    case isTrue looked => exact .looked _ e.escSt (by rw [adds, decide_eq_true ⟨pos, looked⟩])
    case isFalse merges => exact .merged ⟨hs, rfl, merges⟩ (by rw [adds, decide_eq_false fun h => merges h.2])

/-- Every character takes one of these ways. -/
theorem encStep_route (ho : e.mode = .opened) : EncRoute cfg c e (encStep cfg c e) := by
  cases hs : e.escSt with
  | none =>
    by_cases hp : c = cfg.pointChar.code
    · subst hp
      rw [encStep_point ho hs]
      exact encPoint_route hs
    by_cases hm : c = cfg.escChar
    · subst hm
      rw [encStep_marker ho hs hp]
      exact .moved .mark e.escHi (by simp [addsByte, hs, hp])
    · rw [encStep_ordinary ho hs hp hm]
      exact .looked c e.escSt (by simp [addsByte, hs, hp, hm])
  | mark =>
    by_cases hm : c = cfg.escChar
    · subst hm
      rw [encStep_mark_marker ho hs]
      exact .looked _ .none (by simp [addsByte, hs])
    cases hx : isHex c with
    | false => rw [encStep_mark_other ho hs hm hx]; exact .malformed
    | true => rw [encStep_mark_digit ho hs hm hx]; exact .moved .hex1 (hexVal c) (by simp [addsByte, hs, hm])
  | hex1 =>
    cases hx : isHex c with
    | false => rw [encStep_hex1_other ho hs hx]; exact .malformed
    | true => rw [encStep_hex1_digit ho hs hx]; exact .literal _ .none (by simp [addsByte, hs])

/-! ### The byte of MSGBUF that a character stores to (R38, R87) -/

theorem encStep_read_of_merge (h : MergesPoint cfg c e) (ha : a ≠ e.msgLen - 1) :
    (encStep cfg c e).msgBuf.read a = e.msgBuf.read a := by
  obtain ⟨hs, rfl, merges⟩ := h
  by_cases ho : e.mode = .opened
  case neg => rw [encStep_of_not_opened ho]
  rw [encStep_point ho hs]
  rcases Nat.eq_zero_or_pos e.msgLen with empty | pos
  · rw [encPoint_of_empty empty]
  · rw [encPoint_of_pos pos, if_neg merges]
    exact Memory.read_write_other _ _ ha

theorem encStep_read_of_not_merge (h : ¬MergesPoint cfg c e) (ha : a ≠ e.msgLen) :
    (encStep cfg c e).msgBuf.read a = e.msgBuf.read a := by
  by_cases ho : e.mode = .opened
  case neg => rw [encStep_of_not_opened ho]
  have route := encStep_route (cfg := cfg) (c := c) ho
  generalize encStep cfg c e = e' at route
  cases route with
  | moved | malformed => rfl
  | looked d st => exact encOrdinary_read (e := { e with escSt := st }) ha
  | literal g st => exact encEmit_read (e := { e with escSt := st }) ha
  | merged merges => exact absurd merges h

end

/-- Settles O43: ENC_CHAR is its row of the decode table and its mode, and `encStep` stores one byte at most. -/
theorem encCharActsByModeAndStoresOneByte : Obligations.EncCharActsByModeAndStoresOneByte := by
  refine ⟨fun a c s => ⟨decode_encChar_row 0 c, fun ha => ?_⟩, fun s c => ?_⟩
  · exact acceptWord_of_error ((decode_encChar_row a c).trans (if_pos ha)) s
  cases hm : s.enc.mode with
  | opened =>
    refine ⟨_, exec_encChar_opened hm c, rfl, encStep_padSuf _ _ _, nofun, nofun, fun _ => ⟨rfl, rfl, ?_⟩⟩
    split
    case isTrue merges => exact fun a => encStep_read_of_merge merges
    case isFalse other => exact fun a => encStep_read_of_not_merge other
  | err => exact ⟨_, exec_encChar_err hm c, rfl, rfl, fun _ => rfl, nofun, nofun⟩
  | idle => exact ⟨_, exec_encChar_sequence (.inl hm) c, rfl, rfl, nofun, fun _ => rfl, nofun⟩
  | done => exact ⟨_, exec_encChar_sequence (.inr hm) c, rfl, rfl, nofun, fun _ => rfl, nofun⟩

/-! ### A failing character (R95, R103) -/

theorem encSteps_of_not_opened {cfg : Config} {e : Enc} (h : e.mode ≠ .opened) (text : List Byte) : encSteps cfg text e = e := by
  induction text with
  | nil => rfl
  | cons c text ih => exact (congrArg _ (encStep_of_not_opened h)).trans ih

/-- Settles O54: the one move of `EncMove` that ends a session in ERR keeps the message. -/
theorem firstEncoderErrorWins : Obligations.FirstEncoderErrorWins := by
  refine ⟨fun cfg c e ho he => ?_, fun cfg text e he => ?_⟩
  · have move := encStep_move cfg c e
    generalize encStep cfg c e = e' at move he
    cases move with
    | failed st r hr => exact ⟨hr, rfl, rfl, rfl, rfl⟩
    | escape | appended | merged => simp [ho] at he
  · have notOpened : e.mode ≠ .opened := by simp [he]
    exact ⟨encSteps_of_not_opened notOpened text, encEnd_of_not_opened notOpened⟩

end Sys2Proof.Machine
end

section
/-! PROOFS of 41_encoder.md: the padding blanks of a session (R79, R80, R86, R88). -/

namespace Sys2Proof.Machine

/-! ### The loop of blanks -/

theorem encPad_add (cfg : Config) (m n : Nat) (e : Enc) : encPad cfg (m + n) e = encPad cfg n (encPad cfg m e) := by
  simp only [encPad_eq_encSteps, List.replicate_add, encSteps_append]

/-- The last blank of `n + 1`. -/
theorem encPad_succ_last (cfg : Config) (n : Nat) (e : Enc) :
    encPad cfg (n + 1) e = encStep cfg cfg.padChar (encPad cfg n e) := encPad_add cfg n 1 e

theorem encPad_encFail (cfg : Config) (n : Nat) (r : EncErr) (e : Enc) : encPad cfg n (encFail r e) = encFail r e :=
  encPad_of_not_opened (by simp) n

section
variable {cfg : Config}

/-- A failure at the first blank decides (R95). -/
theorem encPad_of_fail {e : Enc} {r : EncErr} {n : Nat} (hn : 0 < n) (h : encStep cfg cfg.padChar e = encFail r e) :
    encPad cfg n e = encFail r e := by
  obtain ⟨k, rfl⟩ := Nat.exists_eq_succ_of_ne_zero hn.ne'
  rw [encPad, h, encPad_encFail]

/-- MSGLEN grows by one byte at most at a character (R80). -/
theorem encStep_msgLen (c : Byte) (e : Enc) :
    e.msgLen ≤ (encStep cfg c e).msgLen ∧ (encStep cfg c e).msgLen ≤ e.msgLen + 1 := by
  have move := encStep_move cfg c e
  generalize encStep cfg c e = e' at move
  cases move <;> simp

variable (hw : cfg.wf = true)
include hw

/-- A blank is no point, so it merges into nothing (R6). -/
theorem not_mergesPoint_pad (e : Enc) : ¬MergesPoint cfg cfg.padChar e := by
  obtain ⟨-, -, hp, -⟩ := wf_chars hw
  rintro ⟨-, hc, -⟩
  exact hp hc.symm

/-- The frame of the blanks (R38): they store to the bytes from MSGLEN on only, one each at most. -/
theorem encPad_frame (e : Enc) (n : Nat) :
    (e.msgLen ≤ (encPad cfg n e).msgLen ∧ (encPad cfg n e).msgLen ≤ e.msgLen + n) ∧
    ∀ a, (a < e.msgLen ∨ e.msgLen + n ≤ a) → (encPad cfg n e).msgBuf.read a = e.msgBuf.read a := by
  induction n with
  | zero => exact ⟨⟨Nat.le_refl _, Nat.le_refl _⟩, fun _ _ => rfl⟩
  | succ n ih =>
    obtain ⟨⟨lo, hi⟩, same⟩ := ih
    have len := encStep_msgLen (cfg := cfg) cfg.padChar (encPad cfg n e)
    rw [encPad_succ_last]
    refine ⟨by omega, fun a ha => ?_⟩
    rw [encStep_read_of_not_merge (not_mergesPoint_pad hw _) (by omega), same a (by omega)]

/-- Blanks open no escape (R6, R80). -/
theorem encPad_escape {e : Enc} (hs : e.escSt = .none) (n : Nat) :
    (encPad cfg n e).escSt = .none ∧ (encPad cfg n e).escHi = e.escHi := by
  induction n generalizing e with
  | zero => exact ⟨hs, rfl⟩
  | succ n ih =>
    rw [encPad]
    by_cases ho : e.mode = .opened
    case neg => rw [encStep_of_not_opened ho]; exact ih hs
    obtain ⟨st, hi⟩ : (encOrdinary cfg cfg.padChar e).escSt = e.escSt ∧ (encOrdinary cfg cfg.padChar e).escHi = e.escHi := by
      unfold encOrdinary encEmit
      split
      · exact ⟨rfl, rfl⟩
      · split <;> exact ⟨rfl, rfl⟩
    rw [encStep_pad hw ho hs, ← hi]
    exact ih (st.trans hs)

/-- A blank that is no digit fails on an open escape (R82, R83). -/
theorem encStep_pad_open_escape {e : Enc} (ho : e.mode = .opened) (hs : e.escSt ≠ .none) (hx : isHex cfg.padChar = false) :
    encStep cfg cfg.padChar e = encFail .escape e := by
  obtain ⟨-, hm, -⟩ := wf_chars hw
  cases h : e.escSt with
  | none => exact absurd h hs
  | mark => exact encStep_mark_other ho h hm.symm hx
  | hex1 => exact encStep_hex1_other ho h hx

/-- Blanks with no glyph fail at the first one (R85). -/
theorem encPad_lookup {e : Enc} (ho : e.mode = .opened) (hs : e.escSt = .none) (h : resolve cfg cfg.padChar = none) {n : Nat}
    (hn : 0 < n) : encPad cfg n e = encFail .lookup e :=
  encPad_of_fail hn ((encStep_pad hw ho hs).trans (encOrdinary_of_miss h))

end

/-! ### Blanks that have a glyph -/

/-- `e'` is the open session `e` with `n` bytes `g` appended, `fb` the fallback flag of `g`. -/
structure Appended (g : Byte) (fb : Bool) (n : Nat) (e e' : Enc) : Prop where
  mode   : e'.mode = .opened
  err    : e'.err = e.err
  escSt  : e'.escSt = .none
  msgLen : e'.msgLen = e.msgLen + n
  glyphs : ∀ a, e.msgLen ≤ a → a < e'.msgLen → msgRead e' a = g
  lastFb : 0 < n → e'.lastFb = fb

section
variable {cfg : Config} {g : Byte} {fb : Bool} (hw : cfg.wf = true) (h : resolve cfg cfg.padChar = some (g, fb))
  {e : Enc} (ho : e.mode = .opened) (hs : e.escSt = .none) {n : Nat}
include hw h ho hs

/-- Blanks with room are appended (R79). -/
theorem encPad_room (room : e.msgLen + n ≤ cfg.msgMax) : Appended g fb n e (encPad cfg n e) := by
  induction n with
  | zero => exact ⟨ho, rfl, hs, rfl, fun a lo hi => absurd hi (Nat.not_lt.mpr lo), fun hn => absurd hn (Nat.lt_irrefl 0)⟩
  | succ n ih =>
    have before := ih (by omega)
    have notFull : (encPad cfg n e).msgLen ≠ cfg.msgMax := by rw [before.msgLen]; omega
    rw [encPad_succ_last, encStep_pad hw before.mode before.escSt, encOrdinary_of_room h notFull]
    refine ⟨before.mode, before.err, before.escSt, congrArg (· + 1) before.msgLen, fun a lo hi => ?_, fun _ => rfl⟩
    rw [msgRead_of_write rfl]
    split
    · rfl
    · exact before.glyphs a lo (by have : a < (encPad cfg n e).msgLen + 1 := hi; omega)

/-- Blanks without room for all of them fill MSGBUF and fail (R79). -/
theorem encPad_overflow (le : e.msgLen ≤ cfg.msgMax) (full : cfg.msgMax < e.msgLen + n) :
    ∃ e', Appended g fb (cfg.msgMax - e.msgLen) e e' ∧ encPad cfg n e = encFail .overflow e' := by
  have filled := encPad_room hw h ho hs (n := cfg.msgMax - e.msgLen) (by omega)
  refine ⟨_, filled, ?_⟩
  have atMax : (encPad cfg (cfg.msgMax - e.msgLen) e).msgLen = cfg.msgMax := by rw [filled.msgLen]; omega
  obtain ⟨k, hk, rfl⟩ : ∃ k, 0 < k ∧ n = cfg.msgMax - e.msgLen + k := ⟨n - (cfg.msgMax - e.msgLen), by omega, by omega⟩
  rw [encPad_add]
  exact encPad_of_fail hk ((encStep_pad hw filled.mode filled.escSt).trans (encOrdinary_of_full h atMax))

end

/-! ### The blanks before the text (R86) -/

theorem padCount_eq (b : Byte) : padCount b = (b &&& 0x7F).toNat := by
  rw [padCount, BitVec.extractLsb'_toNat, BitVec.toNat_and, Nat.shiftRight_zero]
  exact (Nat.and_two_pow_sub_one_eq_mod _ 7).symm

/-- What both commands that begin a session do (R86). -/
theorem exec_begin {s : State} {i : Instr} {p : Nat}
    (h : (i = .encBeginA ∧ p = s.cfg.nDigits) ∨ ∃ b, i = .encBegin b ∧ p = (b &&& 0x7F).toNat) :
    exec i s = .next { s with enc := encBegin s.cfg p s.enc } := by
  rcases h with ⟨rfl, rfl⟩ | ⟨b, rfl, rfl⟩
  · rfl
  · rw [← padCount_eq]
    rfl

/-- Settles O42: a new session is open, empty and with no escape, and takes its blanks. -/
theorem encBeginOpensAPaddedSession : Obligations.EncBeginOpensAPaddedSession := by
  intro s i p hw hi
  obtain ⟨escSt, escHi⟩ := encPad_escape hw (e := encOpen p s.enc) rfl p
  refine ⟨_, exec_begin hi, rfl, encPad_padSuf _ _ _, escSt, escHi, ?_, fun g fb found room => ?_, fun g fb found full => ?_,
    fun miss pos => ?_, fun a ha => ?_⟩
  · rintro rfl
    exact ⟨rfl, rfl, rfl, rfl⟩
  · have blanks := encPad_room hw found (e := encOpen p s.enc) (n := p) rfl rfl (by simpa [encOpen] using room)
    have len : (encPad s.cfg p (encOpen p s.enc)).msgLen = p := blanks.msgLen.trans (Nat.zero_add p)
    exact ⟨blanks.mode, blanks.err, len, blanks.lastFb, fun a ha => blanks.glyphs a (Nat.zero_le a) (ha.trans_eq len.symm)⟩
  · obtain ⟨e', blanks, failed⟩ := encPad_overflow hw found (e := encOpen p s.enc) (n := p) rfl rfl (Nat.zero_le _)
      (by simpa [encOpen] using full)
    have len : e'.msgLen = s.cfg.msgMax := blanks.msgLen.trans (Nat.zero_add _)
    dsimp only [encBegin]
    rw [failed]
    exact ⟨rfl, rfl, len, fun a ha => blanks.glyphs a (Nat.zero_le a) (ha.trans_eq len.symm)⟩
  · dsimp only [encBegin]
    rw [encPad_lookup hw rfl rfl miss pos]
    exact ⟨rfl, rfl, rfl⟩
  · exact (encPad_frame hw (encOpen p s.enc) p).2 a (.inr ((Nat.zero_add p).trans_le ha))

/-! ### The blanks after the text (R88) -/

@[simp] theorem encClose_msgBuf (e : Enc) : (encClose e).msgBuf = e.msgBuf := by
  unfold encClose
  split
  · split <;> rfl
  all_goals rfl

/-- The end-of-text check leaves a failure as it is (R95). -/
theorem encClose_encFail (r : EncErr) (e : Enc) : encClose (encFail r e) = encFail r e := encClose_of_not_opened (by simp)

/-- An escape left open is ESCAPE, with any number of blanks that are no digits (R88). -/
theorem encEnd_open_escape {cfg : Config} (hw : cfg.wf = true) {e : Enc} (ho : e.mode = .opened) (hs : e.escSt ≠ .none)
    (hx : isHex cfg.padChar = false) : encEnd cfg e = encFail .escape e := by
  rw [encEnd]
  rcases Nat.eq_zero_or_pos e.padSuf with zero | pos
  · rw [zero]
    exact encClose_of_open_escape ho hs
  · rw [encPad_of_fail pos (encStep_pad_open_escape hw ho hs hx), encClose_encFail]

/-- Settles O49: the blanks and then the end-of-text check, which stores nothing. -/
theorem encEndAppendsThePadding : Obligations.EncEndAppendsThePadding := by
  intro s hw ho
  refine ⟨_, exec_encEnd_opened ho, by simp [encEnd], fun g fb hs found room => ?_, fun g fb hs found le full => ?_,
    fun hs miss pos => ?_, fun hs hx => ?_, fun a ha => ?_⟩
  · have blanks := encPad_room hw found ho hs room
    dsimp only [encEnd]
    rw [encClose_of_closed blanks.mode blanks.escSt]
    exact ⟨rfl, blanks.msgLen, blanks.glyphs⟩
  · obtain ⟨e', blanks, failed⟩ := encPad_overflow hw found ho hs le full
    have len : e'.msgLen = s.cfg.msgMax := by rw [blanks.msgLen]; omega
    dsimp only [encEnd]
    rw [failed, encClose_encFail]
    exact ⟨rfl, rfl, len, fun a lo hi => blanks.glyphs a lo (hi.trans_eq len.symm)⟩
  · dsimp only [encEnd]
    rw [encPad_lookup hw ho hs miss pos, encClose_encFail]
    exact ⟨rfl, rfl, rfl⟩
  · dsimp only
    rw [encEnd_open_escape hw ho hs hx]
    exact ⟨rfl, rfl⟩
  · dsimp only [encEnd]
    rw [encClose_msgBuf, (encPad_frame hw s.enc s.enc.padSuf).2 a ha]

end Sys2Proof.Machine
end

section
/-! PROOFS of 41_encoder.md: the encode function and what holds of every text (R90 to R94). -/

namespace Sys2Proof.Machine

/-- Settles O55: the padded text is one text, and the stream over it computes a function of the text alone. -/
theorem encodeIsAFoldOverThePaddedText : Obligations.EncodeIsAFoldOverThePaddedText := fun cfg text p e e' =>
  ⟨encodeFrom_congr cfg text p e e',
    (encodeFrom_congr cfg text p e e').trans (encodeFrom_eq_textResult cfg text p e')⟩

/-! ### The commands compute ENCODE (R91) -/

/-- A session is under way or has failed. -/
def InSession (e : Enc) : Prop := e.mode = .opened ∨ e.mode = .err

/-- A character ends no session (R80). -/
theorem InSession.step {e : Enc} (h : InSession e) (cfg : Config) (c : Byte) : InSession (encStep cfg c e) := by
  have move := encStep_move cfg c e
  generalize encStep cfg c e = e' at move
  cases move with
  | failed => exact .inr rfl
  | escape | appended | merged => exact h

theorem InSession.steps {e : Enc} (h : InSession e) (cfg : Config) (text : List Byte) : InSession (encSteps cfg text e) := by
  induction text generalizing e with
  | nil => exact h
  | cons c text ih => exact ih (h.step cfg c)

theorem InSession.pad {e : Enc} (h : InSession e) (cfg : Config) (n : Nat) : InSession (encPad cfg n e) := by
  rw [encPad_eq_encSteps]
  exact h.steps cfg _

/-- ENC_BEGIN begins a session (R86). -/
theorem inSession_encBegin (cfg : Config) (p : Nat) (e : Enc) : InSession (encBegin cfg p e) :=
  InSession.pad (.inl rfl) cfg p

/-- ENC_END ends a session in DONE or in ERR (R88). -/
theorem InSession.ends {e : Enc} (h : InSession e) (cfg : Config) :
    (encEnd cfg e).mode = .done ∨ (encEnd cfg e).mode = .err := by
  rw [encEnd]
  have padded := h.pad cfg e.padSuf
  generalize encPad cfg e.padSuf e = e at padded
  rcases padded with ho | he
  · by_cases hs : e.escSt = .none
    · rw [encClose_of_closed ho hs]
      exact .inl rfl
    · rw [encClose_of_open_escape ho hs]
      exact .inr rfl
  · rw [encClose_of_not_opened (by simp [he])]
    exact .inr he

theorem sessionResult_eq_ok_iff {e : Enc} {m : List Byte} : sessionResult e = .ok m ↔ e.mode = .done ∧ message e = m := by
  unfold sessionResult
  split
  case isTrue h => simp [h]
  case isFalse h => simp [h]

theorem sessionResult_eq_error_iff {e : Enc} {r : EncErr} : sessionResult e = .error r ↔ e.mode ≠ .done ∧ e.err = r := by
  unfold sessionResult
  split
  case isTrue h => simp [h]
  case isFalse h => simp [h]

/-- A word that neither opens nor ends a session does to the encoder what its character does, if it has one (R91). -/
theorem encOfWord_of_keepsSession {w : Word} (h : keepsSession w = true) (cfg : Config) (e : Enc) :
    encOfWord cfg w e = encSteps cfg (charOf w).toList e := by
  unfold keepsSession at h
  unfold encOfWord charOf
  cases hd : decode w with
  | error c => rfl
  | ok i =>
    cases i with
    | encBegin | encBeginA | encEnd => simp [hd] at h
    | nop | tx | clr | encChar | rdMsg | errclr => rfl

/-- Such words feed their characters to the encoder, and do nothing else to it. -/
theorem foldl_encOfWord_of_keepsSession (cfg : Config) {ws : List Word} (h : ∀ w ∈ ws, keepsSession w = true) (e : Enc) :
    ws.foldl (fun e w => encOfWord cfg w e) e = encSteps cfg (ws.filterMap charOf) e := by
  induction ws generalizing e with
  | nil => rfl
  | cons w ws ih =>
    obtain ⟨first, later⟩ := List.forall_mem_cons.mp h
    rw [List.foldl_cons, ih later, encOfWord_of_keepsSession first, ← encSteps_append, List.filterMap_cons]
    cases charOf w <;> rfl

/-- The word that begins the session of O57 (R51, R86). -/
theorem encOfWord_begin {cfg : Config} {w : Word} {p : Nat}
    (h : (decode w = .ok .encBeginA ∧ p = cfg.nDigits) ∨ ∃ b, decode w = .ok (.encBegin b) ∧ p = b.toNat) (e : Enc) :
    encOfWord cfg w e = encBegin cfg p e := by
  rcases h with ⟨hd, rfl⟩ | ⟨b, hd, rfl⟩
  · rw [encOfWord, hd]
  · have small : b.toNat < 0x80 := by
      obtain ⟨wf, -⟩ := wf_and_encode_of_decode hd
      rw [← Nat.not_le, ← getLsbD_seven_iff]
      simpa [Instr.wf] using wf
    rw [encOfWord, hd]
    simp only [padCount_of_lt small]

/-- Settles O57: the words do to the encoder what `encodeFrom` does, and the session they leave is over. -/
theorem commandsComputeEncode : Obligations.CommandsComputeEncode := by
  intro s w0 p ws begins keeps
  obtain ⟨t, ht, enc⟩ := acceptWords_enc (w0 :: ws ++ [0x120000]) s
  have session : t.enc = encEnd s.cfg (encSteps s.cfg (ws.filterMap charOf) (encBegin s.cfg p s.enc)) := by
    rw [enc, List.cons_append, List.foldl_cons, List.foldl_append, encOfWord_begin begins,
      foldl_encOfWord_of_keepsSession s.cfg keeps]
    exact encOfWord_encEnd _ _
  have result : encodeFrom s.cfg (ws.filterMap charOf) p Enc.reset = sessionResult t.enc := by
    rw [session, encodeFrom_congr _ _ _ _ s.enc, encodeFrom]
  have ended : t.enc.mode = .done ∨ t.enc.mode = .err := by
    rw [session]
    exact ((inSession_encBegin s.cfg p s.enc).steps s.cfg _).ends s.cfg
  refine ⟨t, ht, fun m => ?_, fun r => ?_⟩
  · rw [result, sessionResult_eq_ok_iff]
    exact and_congr_right fun _ => ⟨fun hm => ⟨by rw [← hm, message_length], hm⟩, fun hm => hm.2⟩
  · rw [result, sessionResult_eq_error_iff]
    exact and_congr_left fun _ => ⟨ended.resolve_left, fun he => by simp [he]⟩

/-! ### Padding is ordinary text (R92) -/

/-- A glyph that has room is appended, and the text goes on (R79). -/
theorem encodeListGlyph_room {cfg : Config} {m : List Byte} (h : m.length ≠ cfg.msgMax) (text : List Byte) (g : Byte)
    (fb : Bool) :
    encodeListGlyph cfg m text (some (g, fb)) = encodeList cfg (m ++ [g]) fb text := by
  simp [encodeListGlyph, pushGlyph, h]

/-- A character with a glyph of its own, where there is room (R79, R85). -/
theorem encodeList_glyph {cfg : Config} {m : List Byte} {fb : Bool} {c g : Byte} (hp : c ≠ cfg.pointChar.code)
    (hm : c ≠ cfg.escChar) (hg : fontGlyph cfg c = some g) (room : m.length ≠ cfg.msgMax) (text : List Byte) :
    encodeList cfg m fb (c :: text) = encodeList cfg (m ++ [g]) false text := by
  rw [encodeList_ordinary hp hm, resolve_of_font hg, encodeListGlyph_room room]

/-- A point after a glyph that is not the fallback's merges into it (R81). -/
theorem encodeList_point_merges {cfg : Config} {m : List Byte} (h : m ≠ []) (text : List Byte) :
    encodeList cfg m false (cfg.pointChar.code :: text) = encodeList cfg (mergePoint m) false text := by
  rw [encodeList_point, if_neg h]
  rfl

/-- Settles O58: the padded text through `encodeList`, character by character. -/
theorem paddingIsOrdinaryText : Obligations.PaddingIsOrdinaryText := by
  intro cfg e hw
  obtain ⟨hp, hme, hpt, -⟩ := wf_chars hw
  simp only [streamComputesTheListFunction cfg _ _ e]
  refine ⟨fun g hg room => ?_, ?_, fun c g g' hc hc' hg hg' hx room => ?_, fun text p miss noFallback pos => ?_⟩
  · show encodeList cfg [] false [cfg.padChar, cfg.pointChar.code, cfg.padChar] = _
    rw [encodeList_glyph hpt.symm hme.symm hg (by simp; omega), encodeList_point_merges (by simp),
      encodeList_glyph hpt.symm hme.symm hg (by simp [mergePoint]; omega), encodeList_nil]
    rfl
  · show encodeList cfg [] false [cfg.pointChar.code] = _
    rw [encodeList_point, if_pos rfl, encodeList_nil]
  · show encodeList cfg [] false [cfg.padChar, c, cfg.escChar, cfg.padChar] = _
    rw [encodeList_glyph hpt.symm hme.symm hg (by simp; omega), encodeList_glyph hc hc' hg' (by simp; omega),
      encodeList_malformed hp hme.symm hx]
  · obtain ⟨k, rfl⟩ := Nat.exists_eq_succ_of_ne_zero pos.ne'
    rw [paddedText, List.replicate_succ, List.cons_append, List.cons_append, encodeList_ordinary hpt.symm hme.symm,
      resolve_eq_none miss (by simp [noFallback]), encodeListGlyph]

/-! ### The length law (R93) -/

section
variable {cfg : Config}

theorem encEmit_adds {g : Byte} {fb : Bool} {e : Enc} (h : (encEmit cfg g fb e).mode = .opened) :
    (encEmit cfg g fb e).msgLen = e.msgLen + 1 := by
  by_cases full : e.msgLen = cfg.msgMax
  · rw [encEmit_of_full full] at h
    cases h
  · rw [encEmit_of_room full]

theorem encOrdinary_adds {c : Byte} {e : Enc} (h : (encOrdinary cfg c e).mode = .opened) :
    (encOrdinary cfg c e).msgLen = e.msgLen + 1 := by
  cases hr : resolve cfg c with
  | none =>
    rw [encOrdinary_of_miss hr] at h
    cases h
  | some r =>
    rw [encOrdinary_of_glyph hr] at h ⊢
    exact encEmit_adds h

/-- A character that an open session takes adds the byte that R93 counts, or none. -/
theorem encStep_adds {c : Byte} {e : Enc} (ho : e.mode = .opened) (h : (encStep cfg c e).mode = .opened) :
    (encStep cfg c e).msgLen = e.msgLen + if addsByte cfg c e then 1 else 0 := by
  have route := encStep_route (cfg := cfg) (c := c) ho
  generalize encStep cfg c e = e' at route h
  cases route with
  | moved _ _ adds | merged _ adds => rw [adds]; rfl
  | malformed => cases h
  | looked d st adds => rw [adds]; exact encOrdinary_adds h
  | literal g st adds => rw [adds]; exact encEmit_adds h

/-- A session that is open after a text was open before it (R95). -/
theorem opened_of_encSteps {text : List Byte} {e : Enc} (h : (encSteps cfg text e).mode = .opened) : e.mode = .opened := by
  by_contra notOpened
  rw [encSteps_of_not_opened notOpened] at h
  exact notOpened h

/-- A text that a session takes without failing adds the bytes that R93 counts. -/
theorem encSteps_adds {text : List Byte} {e : Enc} (h : (encSteps cfg text e).mode = .opened) :
    (encSteps cfg text e).msgLen = e.msgLen + bytesAdded cfg text e := by
  induction text generalizing e with
  | nil => rfl
  | cons c text ih =>
    have first : (encStep cfg c e).mode = .opened := opened_of_encSteps (text := text) h
    calc (encSteps cfg (c :: text) e).msgLen
      _ = (encStep cfg c e).msgLen + bytesAdded cfg text (encStep cfg c e) := ih h
      _ = e.msgLen + bytesAdded cfg (c :: text) e := by
        rw [encStep_adds (opened_of_encSteps (text := [c]) first) first, bytesAdded, Nat.add_assoc]

/-- A character adds one byte at most (R93). -/
theorem bytesAdded_le_length (text : List Byte) (e : Enc) : bytesAdded cfg text e ≤ text.length := by
  induction text generalizing e with
  | nil => exact Nat.le_refl 0
  | cons c text ih =>
    have rest := ih (encStep cfg c e)
    rw [bytesAdded, List.length_cons]
    split <;> omega

/-- Blanks that a session takes without failing add a byte each (R93). -/
theorem encPad_adds (hw : cfg.wf = true) {e : Enc} (hs : e.escSt = .none) {n : Nat} (h : (encPad cfg n e).mode = .opened) :
    (encPad cfg n e).msgLen = e.msgLen + n := by
  induction n with
  | zero => rfl
  | succ n ih =>
    rw [encPad_succ_last] at h ⊢
    have before : (encPad cfg n e).mode = .opened := opened_of_encSteps (text := [cfg.padChar]) h
    rw [encStep_pad hw before (encPad_escape hw hs n).1] at h ⊢
    rw [encOrdinary_adds h, ih before, Nat.add_assoc]

/-- A session that ENC_END finishes has no escape open, and takes all its blanks (R88, R93). -/
theorem InSession.end_adds {e : Enc} (h : InSession e) (hw : cfg.wf = true) (hx : isHex cfg.padChar = false)
    (hd : (encEnd cfg e).mode = .done) :
    e.mode = .opened ∧ (encEnd cfg e).msgLen = e.msgLen + e.padSuf := by
  have padded : (encPad cfg e.padSuf e).mode = .opened := by
    refine (h.pad cfg e.padSuf).resolve_right fun failed => ?_
    rw [encEnd, encClose_of_not_opened (by simp [failed]), failed] at hd
    cases hd
  have ho : e.mode = .opened := by
    rw [encPad_eq_encSteps] at padded
    exact opened_of_encSteps padded
  have hs : e.escSt = .none := by
    by_contra hs
    rw [encEnd_open_escape hw ho hs hx] at hd
    cases hd
  refine ⟨ho, ?_⟩
  rw [encEnd, encClose_of_closed padded (encPad_escape hw hs _).1]
  exact encPad_adds hw hs padded

end

/-- Settles O59: the blanks, the text and the blanks after it add their bytes one after the other. -/
theorem encodedLengthLaw : Obligations.EncodedLengthLaw := by
  intro cfg text p e m hw hx h
  obtain ⟨done, rfl⟩ := sessionResult_eq_ok_iff.mp h
  have pad : (encSteps cfg text (encBegin cfg p e)).padSuf = p := by simp [encBegin, encOpen]
  obtain ⟨opened, suffix⟩ := ((inSession_encBegin cfg p e).steps cfg text).end_adds hw hx done
  have before : (encBegin cfg p e).msgLen = 0 + p := encPad_adds hw rfl (opened_of_encSteps opened)
  have length : (message (encEnd cfg (encSteps cfg text (encBegin cfg p e)))).length =
      2 * p + bytesAdded cfg text (encBegin cfg p e) := by
    rw [message_length, suffix, pad, encSteps_adds opened, before]
    omega
  have bound := bytesAdded_le_length (cfg := cfg) text (encBegin cfg p e)
  exact ⟨length, by omega⟩

/-! ### With a fallback no text ends in LOOKUP (R94) -/

section
variable {cfg : Config} {e : Enc}

theorem encEmit_err_ne_lookup (h : e.err ≠ .lookup) (g : Byte) (fb : Bool) : (encEmit cfg g fb e).err ≠ .lookup := by
  unfold encEmit
  split
  · exact nofun
  · exact h

/-- Without a miss a character records no LOOKUP (R85). -/
theorem encStep_err_ne_lookup (found : ∀ c, (resolve cfg c).isSome) (h : e.err ≠ .lookup) (c : Byte) :
    (encStep cfg c e).err ≠ .lookup := by
  by_cases ho : e.mode = .opened
  case neg => rwa [encStep_of_not_opened ho]
  have route := encStep_route (cfg := cfg) (c := c) ho
  generalize encStep cfg c e = e' at route
  cases route with
  | moved | merged => exact h
  | malformed => exact nofun
  | looked d st =>
    obtain ⟨r, hr⟩ := Option.isSome_iff_exists.mp (found d)
    rw [encOrdinary_of_glyph hr]
    exact encEmit_err_ne_lookup (e := { e with escSt := st }) h _ _
  | literal g st => exact encEmit_err_ne_lookup (e := { e with escSt := st }) h _ _

theorem encSteps_err_ne_lookup (found : ∀ c, (resolve cfg c).isSome) (h : e.err ≠ .lookup) (text : List Byte) :
    (encSteps cfg text e).err ≠ .lookup := by
  induction text generalizing e with
  | nil => exact h
  | cons c text ih => exact ih (encStep_err_ne_lookup found h c)

/-- The end-of-text check records ESCAPE alone (R88). -/
theorem encClose_err_ne_lookup (h : e.err ≠ .lookup) : (encClose e).err ≠ .lookup := by
  unfold encClose
  split
  · split
    · exact h
    · exact nofun
  all_goals exact h

end

/-- Settles O60: with a fallback in FONT every character resolves, and a miss is the one cause of LOOKUP. -/
theorem fallbackRulesOutLookup : Obligations.FallbackRulesOutLookup := by
  intro cfg f g text p e hf hg
  have found := resolve_isSome_of_fallback hf hg
  rw [encodeFrom_eq_textResult, textResult, Ne, sessionResult_eq_error_iff]
  rintro ⟨-, lookup⟩
  exact encClose_err_ne_lookup (encSteps_err_ne_lookup found (e := encOpen p e) nofun _) lookup

end Sys2Proof.Machine
end

section
/-! PROOFS of 42_control.md: NOP and ERRCLR (R98, R99). -/

namespace Sys2Proof.Machine

/-! ### NOP (R98) -/

theorem exec_nop (s : State) : exec .nop s = .next s := rfl

/-- A block that is not ready accepts no word (R31(c)). -/
theorem not_accepts_of_not_ready {s : State} (h : s.cmdReady = false) : ¬Accepts s := by
  rintro ⟨-, idle, stall, -⟩
  rcases (cmdReady_eq_false_iff s).mp h with transaction | stalled
  · exact TxState.noConfusion (idle.symm.trans transaction)
  · exact Nat.ne_of_gt stalled stall

/-- Settles O51: the two rows of OP 0x00, and a block that is not ready never reads the port. -/
theorem nopDoesNothing : Obligations.NopDoesNothing := by
  refine ⟨fun s => ⟨acceptWord_of_ok (decode_encode (i := .nop) rfl) s, exec_nop s⟩, fun a b s h => ?_, fun s port busy => ?_⟩
  · exact acceptWord_of_error ((decode_nop_row a b).trans (if_pos h)) s
  · have reset : s.port.rst = false := by rw [port]
    have unready : s.cmdReady = false := by rw [State.cmdReady, busy, Bool.not_true]
    exact ⟨not_accepts_of_not_ready unready, (portIsNotSeenWhileNotReady s false 0 reset unready).symm⟩

/-! ### ERRCLR (R99) -/

theorem exec_errclr (s : State) : exec .errclr s = .next (clearCmdError s) := rfl

/-- Clearing no error changes nothing. -/
theorem clearCmdError_of_none {s : State} (h : s.cmdErr = 0) : clearCmdError s = s := by
  rw [clearCmdError, ← h]

/-- A mask that is 0 on the second of five fields, the bits 7..5, and 1 on the others. -/
theorem append_and_mask (m : BitVec 8) (c : BitVec 3) (e o : BitVec 2) (b : BitVec 1) :
    (m ++ c ++ e ++ o ++ b) &&& 0xFF1F = m ++ 0#3 ++ e ++ o ++ b := by
  have mask : (0xFF1F : BitVec (8 + 3 + 2 + 2 + 1)) =
      BitVec.allOnes 8 ++ 0#3 ++ BitVec.allOnes 2 ++ BitVec.allOnes 2 ++ BitVec.allOnes 1 := by decide
  rw [mask]
  simp only [BitVec.and_append, BitVec.and_allOnes, BitVec.and_zero]

/-- Clearing the error masks STATUS[7:5] out and keeps the other bits (R32). -/
theorem status_clearCmdError (s : State) : (clearCmdError s).status = s.status &&& 0xFF1F :=
  (append_and_mask _ _ _ _ _).symm

/-- Settles O52: `clearCmdError` masks STATUS, and a nonzero field fails in the row of OP 0x30. -/
theorem errclrClearsTheCommandError : Obligations.ErrclrClearsTheCommandError := by
  have word (s : State) : acceptWord 0x300000 s = .next (clearCmdError s) :=
    acceptWord_of_ok (decode_encode (i := .errclr) rfl) s
  refine ⟨fun s => ⟨word s, exec_errclr s⟩, fun s t h => ?_, fun a b s h => ?_, fun s h => ⟨_, word s, ?_⟩⟩
  · obtain rfl : clearCmdError s = t := by simpa [exec_errclr] using h
    refine ⟨status_cmdErr _, ?_, ?_, clearCmdError_of_none⟩
    all_goals
      rw [status_clearCmdError, BitVec.extractLsb'_and]
      exact BitVec.and_allOnes
  · exact acceptWord_of_error ((decode_errclr_row a b).trans (if_pos h)) s
  · rw [status_clearCmdError, h]
    decide

end Sys2Proof.Machine
end

section
/-! PROOFS of 60_exceptions.md: the causes of the command errors (R101, R102), and a block without commands (R113). -/

namespace Sys2Proof.Machine

/-! ### A block without commands (R113) -/

/-- Settles O18: ticks with neither a reset nor a valid word are a quiet run. -/
theorem quietBlockKeepsItsState : Obligations.QuietBlockKeepsItsState := fun n _ hs hi silent =>
  run_quiet n hs hi (fun p hp => (silent p hp).left) (.inr fun p hp => (silent p hp).right)

/-! ### The command error that a command raises (R102) -/

/-- The command error that the command `i` raises in `s`, if it raises one (R87 to R89). -/
def execError (i : Instr) (s : State) : Option CmdError :=
  match i with
  | .encChar _ | .encEnd => if s.enc.mode = .idle ∨ s.enc.mode = .done then some .sequence else none
  | .rdMsg idx => if s.cfg.msgMax ≤ idx.toNat then some .range else none
  | .nop | .tx _ _ | .clr _ | .encBegin _ | .encBeginA | .errclr => none

section
variable {i : Instr} {s : State}

theorem execError_eq_some_iff {c : CmdError} : execError i s = some c ↔
    (c = .sequence ∧ (s.enc.mode = .idle ∨ s.enc.mode = .done) ∧ (i = .encEnd ∨ ∃ ch, i = .encChar ch)) ∨
    (c = .range ∧ ∃ idx, i = .rdMsg idx ∧ s.cfg.msgMax ≤ idx.toNat) := by
  cases i with
  | encChar | encEnd | rdMsg => simp [execError, and_comm, eq_comm]
  | nop | tx | clr | encBegin | encBeginA | errclr => simp [execError]

/-- A command that raises an error does nothing else (R101). -/
theorem exec_of_error {c : CmdError} (h : execError i s = some c) : exec i s = .next (raiseCmdError c s) := by
  rw [raiseCmdError_eq]
  rcases execError_eq_some_iff.mp h with ⟨rfl, hm, rfl | ⟨ch, rfl⟩⟩ | ⟨rfl, idx, rfl, out⟩
  · exact exec_encEnd_sequence hm
  · exact exec_encChar_sequence hm ch
  · exact exec_rdMsg_range out

/-- A session is open or failed where ENC_CHAR and ENC_END are no SEQUENCE errors (R87, R88). -/
theorem opened_or_err {m : EncMode} (h : ¬(m = .idle ∨ m = .done)) : m = .opened ∨ m = .err := by
  cases m with
  | idle | done => simp at h
  | opened => exact .inl rfl
  | err => exact .inr rfl

/-- A command that raises no error leaves CMD_ERR_CODE alone, or clears it (R30, R99). -/
theorem exec_of_no_error (h : execError i s = none) : ∃ t, exec i s = .next t ∧ (t.cmdErr = s.cmdErr ∨ t.cmdErr = 0) := by
  cases i with
  | nop | tx | clr | encBegin | encBeginA => exact ⟨_, rfl, .inl rfl⟩
  | errclr => exact ⟨_, rfl, .inr rfl⟩
  | encChar ch =>
    rcases opened_or_err (by simpa [execError] using h) with hm | hm
    · exact ⟨_, exec_encChar_opened hm ch, .inl rfl⟩
    · exact ⟨_, exec_encChar_err hm ch, .inl rfl⟩
  | encEnd =>
    rcases opened_or_err (by simpa [execError] using h) with hm | hm
    · exact ⟨_, exec_encEnd_opened hm, .inl rfl⟩
    · exact ⟨_, exec_encEnd_err hm, .inl rfl⟩
  | rdMsg idx =>
    have inside : idx.toNat < s.cfg.msgMax := by simpa [execError] using h
    rcases Nat.lt_or_ge idx.toNat s.enc.msgLen with hl | hl
    · exact ⟨_, exec_rdMsg_inside inside hl, .inl rfl⟩
    · exact ⟨_, exec_rdMsg_after inside hl, .inl rfl⟩

end

/-! ### The command error that a word raises (R53, R102) -/

/-- The command error that accepting `w` in `s` raises, if it raises one: that of decode, or that of the command. -/
def acceptError (w : Word) (s : State) : Option CmdError :=
  match decode w with
  | .error c => some c
  | .ok i => execError i s

section
variable {w : Word} {s : State}

/-- From CMD_ERR_CODE = 0 a word records the error that it raises and does nothing else, or CMD_ERR_CODE stays 0. -/
theorem acceptWord_records (hz : s.cmdErr = 0) : ∃ t, acceptWord w s = .next t ∧
    ((∃ c, acceptError w s = some c ∧ t = { s with cmdErr := cmdErrorCode c }) ∨
     (acceptError w s = none ∧ t.cmdErr = 0)) := by
  have raised (c : CmdError) : raiseCmdError c s = { s with cmdErr := cmdErrorCode c } := if_pos hz
  cases hd : decode w with
  | error c => exact ⟨raiseCmdError c s, by rw [acceptWord, hd], .inl ⟨c, by rw [acceptError, hd], raised c⟩⟩
  | ok i =>
    have same : acceptError w s = execError i s := by rw [acceptError, hd]
    rw [acceptWord_of_ok hd, same]
    cases he : execError i s with
    | some c => exact ⟨_, exec_of_error he, .inl ⟨c, rfl, raised c⟩⟩
    | none =>
      obtain ⟨t, ht, kept⟩ := exec_of_no_error he
      exact ⟨t, ht, .inr ⟨rfl, kept.elim (·.trans hz) id⟩⟩

theorem acceptError_eq_some_iff {c : CmdError} :
    acceptError w s = some c ↔ decode w = .error c ∨ ∃ i, decode w = .ok i ∧ execError i s = some c := by
  unfold acceptError
  cases decode w <;> simp

/-- An error that no command raises is one of decode. -/
theorem acceptError_iff_decode {c : CmdError} (h : c = .illegalOp ∨ c = .reservedNz) :
    acceptError w s = some c ↔ decode w = .error c := by
  rw [acceptError_eq_some_iff]
  rcases h with rfl | rfl <;> simp [execError_eq_some_iff]

/-- An error that decode does not raise is one of a command. -/
theorem acceptError_iff_exec {c : CmdError} (h : c = .sequence ∨ c = .range) :
    acceptError w s = some c ↔ ∃ i, decode w = .ok i ∧ execError i s = some c := by
  rw [acceptError_eq_some_iff, or_iff_right]
  intro hd
  rcases h with rfl | rfl <;> simpa [DecodesExactly, hd] using decodesExactly w

theorem acceptError_sequence : acceptError w s = some .sequence ↔
    (s.enc.mode = .idle ∨ s.enc.mode = .done) ∧ (decode w = .ok .encEnd ∨ ∃ ch, decode w = .ok (.encChar ch)) := by
  rw [acceptError_iff_exec (.inl rfl)]
  simp [execError_eq_some_iff, and_left_comm, and_or_left, exists_or]

theorem acceptError_range : acceptError w s = some .range ↔
    ∃ idx, decode w = .ok (.rdMsg idx) ∧ s.cfg.msgMax ≤ idx.toNat := by
  rw [acceptError_iff_exec (.inr rfl)]
  simp [execError_eq_some_iff, and_or_left]

end

/-- Settles O53: the code recorded is that of `acceptError`, distinct errors have distinct codes, and each has its cause. -/
theorem commandErrorsHaveTheirCauses : Obligations.CommandErrorsHaveTheirCauses := by
  intro w s hz
  obtain ⟨t, ht, outcome⟩ := acceptWord_records (w := w) hz
  have code (c : CmdError) : t.cmdErr = cmdErrorCode c ↔ acceptError w s = some c := by
    rcases outcome with ⟨d, hd, rfl⟩ | ⟨hn, h0⟩
    · rw [hd, Option.some_inj]
      exact ⟨cmdErrorCode_injective, congrArg cmdErrorCode⟩
    · rw [hn, h0]
      cases c <;> decide
  refine ⟨t, ht, (code .illegalOp).trans (acceptError_iff_decode (.inl rfl)),
    (code .reservedNz).trans (acceptError_iff_decode (.inr rfl)), (code .sequence).trans acceptError_sequence,
    (code .range).trans acceptError_range, ?_⟩
  rcases outcome with ⟨d, -, rfl⟩ | ⟨-, h0⟩
  · exact ⟨(cmdErrorCode_range d).2, fun _ => rfl⟩
  · exact ⟨by rw [h0]; decide, fun hne => absurd h0 hne⟩

end Sys2Proof.Machine
end

section
/-! PROOFS of 70_reset_and_hazards.md: the reset tick, the receiver across a reset, and the boot sequence (R114 to R119). -/

namespace Sys2Proof.Machine

/-! ### The configuration (R118) -/

/-- Settles O15: `step` refuses every other configuration, and no tick writes it. -/
theorem configurationNeverChanges : Obligations.ConfigurationNeverChanges := fun _ _ h =>
  ⟨(step_cases h).1, step_cfg h⟩

/-! ### The reset values (R115) -/

/-- Settles O21: no invariant asks anything of the receiver before a transaction begins. -/
theorem resetStateHasTheInvariants : Obligations.ResetStateHasTheInvariants :=
  ⟨fun _ rx inputs n hw => inv_resetFor hw rx inputs n, inv_resetFor (by decide) _ _ _⟩

/-- A reset tick puts the block at its reset values, and the receiver sees the lines rise to their idle levels (R114, R116). -/
theorem step_of_reset_eq_resetFor {s : State} (hw : s.cfg.wf = true) (hr : s.port.rst = true) :
    step s = .next (State.resetFor s.cfg (s.rx.onReset s.lines s.draws) s.inputs.tail (s.draws + 1)) :=
  step_of_reset hw hr

@[simp] theorem resetFor_rx (c : Config) (rx : Receiver) (inputs : List PortInput) (n : Nat) :
    (State.resetFor c rx inputs n).rx = rx := rfl

@[simp] theorem resetFor_status (c : Config) (rx : Receiver) (inputs : List PortInput) (n : Nat) :
    (State.resetFor c rx inputs n).status = 0x0000 := by
  show BitVec.ofNat 8 0 ++ (0 : BitVec 3) ++ EncErr.none.code ++ EncMode.idle.code ++ BitVec.ofBool false = _
  decide

/-- Settles O29: the reset tick and `State.reset` both give a `State.resetFor`, which has the values of R115 in every instance. -/
theorem resetTickLoadsTheResetValues : Obligations.ResetTickLoadsTheResetValues := by
  unfold Obligations.ResetTickLoadsTheResetValues
  intro atReset
  have values (c : Config) (rx : Receiver) (inputs : List PortInput) (n : Nat) : atReset (State.resetFor c rx inputs n) :=
    ⟨rfl, rfl, rfl, rfl, rfl, rfl, rfl, rfl, rfl, rfl, rfl, rfl, rfl, rfl, rfl, rfl, resetFor_status c rx inputs n, rfl⟩
  exact ⟨fun s hw hr => ⟨_, step_of_reset_eq_resetFor hw hr, values _ _ _ _, rfl⟩, values _ _ _ _⟩

/-! ### The receiver across a reset (R116) -/

/-- With RCLK high a reset leaves LAT alone. -/
theorem Receiver.onReset_lat_of_rclk_high {l : Lines} (h : l.rclk = true) (n : Nat) (r : Receiver) :
    (r.onReset l n).lat = r.lat := if_pos h

/-- With RCLK low and SCLK high a reset latches SR. -/
theorem Receiver.onReset_of_rclk_low {l : Lines} (hs : l.sclk = true) (hr : l.rclk = false) (n : Nat) (r : Receiver) :
    r.onReset l n = ⟨r.sr, r.sr⟩ := by
  simp [Receiver.onReset, hs, hr]

/-- With both clocks high a reset leaves the receiver alone. -/
theorem Receiver.onReset_of_clocks_high {l : Lines} (hs : l.sclk = true) (hr : l.rclk = true) (n : Nat) (r : Receiver) :
    r.onReset l n = r := by
  simp [Receiver.onReset, hs, hr]

/-- RCLK is low only between the two halves of the latch pulse: SCLK is high, and the receiver has the whole frame in SR (R65). -/
theorem Inv.of_rclk_low {s : State} (inv : Inv s) (low : s.lines.rclk = false) :
    s.tx.state = .busy ∧ s.lines.sclk = true ∧ s.rx.sr = s.tx.frame := by
  cases hb : s.tx.state with
  | idle =>
    obtain ⟨-, idle⟩ := (txInv_idle hb).mp inv.tx
    simp [idle] at low
  | busy =>
    obtain ⟨-, lines⟩ := (txInv_busy hb).mp inv.tx
    have rx := (rxInv_busy hb).mp inv.rx
    have done : eventsDone s = 49 := lines.rclk.mp low
    rw [done] at lines rx
    refine ⟨rfl, ?_, BitVec.eq_of_toNat_eq (by simpa [Nat.mod_eq_of_lt s.rx.sr.isLt] using rx.sr)⟩
    simpa using lines.sclk

/-- Settles O30: only RCLK's rise latches, and the frame is whole in SR while RCLK is low. -/
theorem resetLeavesNoPartialFrame : Obligations.ResetLeavesNoPartialFrame := by
  intro s inv hr
  refine ⟨_, step_of_reset_eq_resetFor inv.cfg hr, rfl, rfl, ?_⟩
  rw [resetFor_rx]
  cases hl : s.lines.rclk with
  | true =>
    have kept := Receiver.onReset_lat_of_rclk_high hl s.draws s.rx
    exact ⟨fun _ => kept, nofun, fun hs _ => Receiver.onReset_of_clocks_high hs hl _ _, .inl kept⟩
  | false =>
    obtain ⟨hb, hs, whole⟩ := inv.of_rclk_low hl
    rw [Receiver.onReset_of_rclk_low hs hl, whole]
    exact ⟨fun low => by simp [hs] at low, fun _ => ⟨hb, rfl, rfl⟩, fun _ => nofun, .inr ⟨hb, rfl⟩⟩

/-! ### Boot (R119) -/

/-- The digit half of a receiver that has latched a frame (R11, R73). -/
theorem digits_of_txFrame (cfg : Config) (sr : Frame) (seg dig : Byte) : (Receiver.mk sr (txFrame cfg seg dig)).digits = dig :=
  BitVec.extractLsb'_append_eq_right

/-- The segment half of a receiver that has latched a frame (R11, R73). -/
theorem segments_of_txFrame (cfg : Config) (sr : Frame) (seg dig : Byte) :
    (Receiver.mk sr (txFrame cfg seg dig)).segments = segw cfg seg :=
  BitVec.extractLsb'_append_eq_left

/-- CLR 0xFF starts the transaction of the dark frame (R64). -/
theorem acceptWord_clrAll (s : State) : acceptWord 0x0200FF s = .next (startTx (txFrame s.cfg 0x00 0xFF) s) := by
  have word : decode 0x0200FF = .ok (.clr 0xFF) := decode_clr_row 0 0xFF
  rw [acceptWord_of_ok word, exec_clr]

/-- Settles O31: the reset tick leaves a ready block with the invariants, and CLR 0xFF delivers its frame from there. -/
theorem bootSequenceDarkensTheDisplay : Obligations.BootSequenceDarkensTheDisplay := by
  intro s p l hw hp hl quiet
  have hr : s.port.rst = true := by simpa [State.port, hl] using hp
  have first := step_of_reset_eq_resetFor hw hr
  rw [hl, List.tail_cons] at first
  have noReset : ∀ q ∈ (⟨false, true, 0x0200FF⟩ :: l).take (1 + 50 * s.cfg.tPhase), q.rst = false := by
    rw [Nat.add_comm, List.take_succ_cons]
    exact List.forall_mem_cons.mpr ⟨rfl, quiet⟩
  have inv := inv_resetFor hw (s.rx.onReset s.lines s.draws) (⟨false, true, 0x0200FF⟩ :: l) (s.draws + 1)
  obtain ⟨t, ht, idle, rx, -⟩ := run_from_acceptance inv ⟨rfl, rfl, rfl, rfl⟩ (acceptWord_clrAll _) noReset
  refine ⟨t, ?_, idle, ?_, fun j hj => ?_⟩
  · rw [show 2 + 50 * s.cfg.tPhase = 1 + 50 * s.cfg.tPhase + 1 by omega, run_succ first]
    exact ht
  · rw [rx]
    exact digits_of_txFrame _ _ _ _
  · rw [rx, segments_of_txFrame, segw_bit _ _ hj, if_neg (by simp)]
    rfl

end Sys2Proof.Machine
end

section
/-! PROOFS of 93_implementation_defined.md: the fault on a CMD_ERR_CODE that is never produced (U17). -/

namespace Sys2Proof.Machine

/-- The codes above those of R102 are 5, 6 and 7: the field has three bits (R30, R32). -/
theorem four_lt_cmdErrCode_iff : ∀ code : BitVec 3, 4 < code ↔ code ∈ ([5, 6, 7] : List (BitVec 3)) := by decide

/-- A tick without reset faults on a code that is never produced (U17, entry 11). -/
theorem step_of_unproduced_code {s : State} (hw : s.cfg.wf = true) (hr : s.port.rst = false) (hc : 4 < s.cmdErr) :
    step s = .fault .cmdErrCodeNeverProduced := by
  unfold step tick
  rw [if_pos hw, hr, if_neg (by decide), if_pos hc]

/-- Settles O14: a reset tick and the tick of a sound machine have a next state, and the states left are those of U17. -/
theorem unproducedErrorCodesFault : Obligations.UnproducedErrorCodesFault := by
  intro s hw
  rw [← four_lt_cmdErrCode_iff]
  refine ⟨fun fault => ?_, fun ⟨hr, hc⟩ => step_of_unproduced_code hw hr hc⟩
  constructor
  · by_contra hr
    rw [step_of_reset hw (by simpa using hr)] at fault
    cases fault
  · by_contra hc
    obtain ⟨t, ht⟩ := step_next_of_sound ⟨hw, BitVec.not_lt.mp hc⟩
    rw [ht] at fault
    cases fault

end Sys2Proof.Machine
end
